-- ==== Sys2Proof/Word.lean ====
section
/-! DEFINITION. The machine's words and indices (R6, R11, R61): 8-bit bytes, 16-bit words, register and key indices. -/

namespace Sys2Proof

/-- An 8-bit value: a general register, a timer, a byte of memory (R11, R20, R40). -/
abbrev Byte := BitVec 8

/-- A 16-bit value: an instruction word, `pc`, `I`, a return address (R15, R17, R18, R60). -/
abbrev Word := BitVec 16

/-- A 4-bit immediate `N` (R61). -/
abbrev Nibble := BitVec 4

/-- A 12-bit address `NNN` (R61). -/
abbrev Addr12 := BitVec 12

/-- A general register's index, 0..15 (R11); being this type it "cannot be out of range" (R63). -/
abbrev Reg := Fin 16

/-- A key code, 0x0..0xF (R151). -/
abbrev Key := Fin 16

/-- The flag register `VF` is register 15 (R12). -/
abbrev Reg.vf : Reg := 15

/-- One tick's keypad snapshot: one entry per key code, true when the key is down (R151). -/
abbrev Keypad := Vector Bool 16

end Sys2Proof
end

