-- ==== Sys2Proof/Syntax.lean ====
section
/-! DEFINITION. The decoder's output type: one constructor per row of R66 (spec/opcode_table.json), carrying the fields R69
names, each with the type of R61. Every value of these types is an operand the encoding admits, so every term of `Instr` is a
well-formed instruction. -/

namespace Sys2Proof

/-- The 34 instructions, under the variant names of R69. -/
inductive Instr where
  /-- `CLS`, 00E0 (R80). -/
  | cls
  /-- `RET`, 00EE (R83). -/
  | ret
  /-- `JP NNN`, 1NNN (R81). -/
  | jp (addr : Addr12)
  /-- `CALL NNN`, 2NNN (R82). -/
  | call (addr : Addr12)
  /-- `SE Vx, NN`, 3XNN (R90). -/
  | seImm (x : Reg) (nn : Byte)
  /-- `SNE Vx, NN`, 4XNN (R91). -/
  | sneImm (x : Reg) (nn : Byte)
  /-- `SE Vx, Vy`, 5XY0 (R92). -/
  | seReg (x y : Reg)
  /-- `LD Vx, NN`, 6XNN (R100). -/
  | ldImm (x : Reg) (nn : Byte)
  /-- `ADD Vx, NN`, 7XNN (R101). -/
  | addImm (x : Reg) (nn : Byte)
  /-- `LD Vx, Vy`, 8XY0 (R102). -/
  | ld (x y : Reg)
  /-- `OR Vx, Vy`, 8XY1 (R103). -/
  | or (x y : Reg)
  /-- `AND Vx, Vy`, 8XY2 (R104). -/
  | and (x y : Reg)
  /-- `XOR Vx, Vy`, 8XY3 (R105). -/
  | xor (x y : Reg)
  /-- `ADD Vx, Vy`, 8XY4 (R106). -/
  | add (x y : Reg)
  /-- `SUB Vx, Vy`, 8XY5 (R107). -/
  | sub (x y : Reg)
  /-- `SHR Vx`, 8XY6; `y` is carried and has no effect (R68, R108). -/
  | shr (x y : Reg)
  /-- `SUBN Vx, Vy`, 8XY7 (R109). -/
  | subn (x y : Reg)
  /-- `SHL Vx`, 8XYE; `y` is carried and has no effect (R68, R110). -/
  | shl (x y : Reg)
  /-- `SNE Vx, Vy`, 9XY0 (R93). -/
  | sneReg (x y : Reg)
  /-- `LD I, NNN`, ANNN (R120). -/
  | ldI (addr : Addr12)
  /-- `JP V0, NNN`, BNNN (R84). -/
  | jpV0 (addr : Addr12)
  /-- `RND Vx, NN`, CXNN (R121). -/
  | rnd (x : Reg) (nn : Byte)
  /-- `DRW Vx, Vy, N`, DXYN (R122). -/
  | drw (x y : Reg) (n : Nibble)
  /-- `SKP Vx`, EX9E (R130). -/
  | skp (x : Reg)
  /-- `SKNP Vx`, EXA1 (R131). -/
  | sknp (x : Reg)
  /-- `LD Vx, DT`, FX07 (R132). -/
  | ldVxDt (x : Reg)
  /-- `LD Vx, K`, FX0A (R133). -/
  | ldVxK (x : Reg)
  /-- `LD DT, Vx`, FX15 (R134). -/
  | ldDtVx (x : Reg)
  /-- `LD ST, Vx`, FX18 (R135). -/
  | ldStVx (x : Reg)
  /-- `ADD I, Vx`, FX1E (R136). -/
  | addIVx (x : Reg)
  /-- `LD F, Vx`, FX29 (R137). -/
  | ldFVx (x : Reg)
  /-- `LD B, Vx`, FX33 (R138). -/
  | ldBVx (x : Reg)
  /-- `LD [I], Vx`, FX55 (R139). -/
  | ldMemVx (x : Reg)
  /-- `LD Vx, [I]`, FX65 (R140). -/
  | ldVxMem (x : Reg)
  deriving DecidableEq, Repr

end Sys2Proof
end

