-- ==== Sys2Proof/Decode.lean ====
section
/-! DEFINITION. The decoder of R64 and R70, total on every word and every byte string and rejecting by name; the opcode map of
R66 as a table; the encoder, written from the same rows. -/

namespace Sys2Proof

/-- Why no instruction was read. -/
inductive DecodeError where
  /-- R67: the word matches no row of R66; it is carried raw (R64). -/
  | illegalWord (w : Word)
  /-- Fewer than `INSTR_BYTES` bytes were given (R60). -/
  | truncated
  deriving DecidableEq, Repr

/-! ### Fields of the word (R61) -/

/-- "first byte high, second low" (R45, R47). -/
def wordOfBytes (hi lo : Byte) : Word := hi ++ lo

/-- The byte at the lower address: `w[15:8]`. -/
def highByte (w : Word) : Byte := w.extractLsb' 8 8

/-- The byte at the higher address: `w[7:0]`. -/
def lowByte (w : Word) : Byte := w.extractLsb' 0 8

/-- A 4-bit field used "directly as the index into `V`" (R63). -/
def regOfBits (b : Nibble) : Reg := ⟨b.toNat, b.isLt⟩

/-- A register index as its 4-bit field. -/
def bitsOfReg (r : Reg) : Nibble := BitVec.ofNat 4 r.val

/-- `op = w[15:12]`. -/
def fieldOp (w : Word) : Nibble := w.extractLsb' 12 4

/-- `X = w[11:8]`. -/
def fieldX (w : Word) : Reg := regOfBits (w.extractLsb' 8 4)

/-- `Y = w[7:4]`. -/
def fieldY (w : Word) : Reg := regOfBits (w.extractLsb' 4 4)

/-- `N = w[3:0]`. -/
def fieldN (w : Word) : Nibble := w.extractLsb' 0 4

/-- `NN = w[7:0]`. -/
def fieldNN (w : Word) : Byte := w.extractLsb' 0 8

/-- `NNN = w[11:0]`. -/
def fieldNNN (w : Word) : Addr12 := w.extractLsb' 0 12

/-! ### The decoder (R70) -/

/-- Family 0: the whole word (R65). -/
def decodeSystem (w : Word) : Except DecodeError Instr :=
  if w = 0x00E0 then .ok .cls else if w = 0x00EE then .ok .ret else .error (.illegalWord w)

/-- Family 8: keyed by the low nibble (R65). -/
def decodeAlu (w : Word) : Except DecodeError Instr :=
  if fieldN w = 0x0 then .ok (.ld (fieldX w) (fieldY w))
  else if fieldN w = 0x1 then .ok (.or (fieldX w) (fieldY w))
  else if fieldN w = 0x2 then .ok (.and (fieldX w) (fieldY w))
  else if fieldN w = 0x3 then .ok (.xor (fieldX w) (fieldY w))
  else if fieldN w = 0x4 then .ok (.add (fieldX w) (fieldY w))
  else if fieldN w = 0x5 then .ok (.sub (fieldX w) (fieldY w))
  else if fieldN w = 0x6 then .ok (.shr (fieldX w) (fieldY w))
  else if fieldN w = 0x7 then .ok (.subn (fieldX w) (fieldY w))
  else if fieldN w = 0xE then .ok (.shl (fieldX w) (fieldY w))
  else .error (.illegalWord w)

/-- Family E: keyed by the low byte (R65). -/
def decodeKeySkip (w : Word) : Except DecodeError Instr :=
  if fieldNN w = 0x9E then .ok (.skp (fieldX w))
  else if fieldNN w = 0xA1 then .ok (.sknp (fieldX w))
  else .error (.illegalWord w)

/-- Family F: keyed by the low byte (R65). -/
def decodeMisc (w : Word) : Except DecodeError Instr :=
  if fieldNN w = 0x07 then .ok (.ldVxDt (fieldX w))
  else if fieldNN w = 0x0A then .ok (.ldVxK (fieldX w))
  else if fieldNN w = 0x15 then .ok (.ldDtVx (fieldX w))
  else if fieldNN w = 0x18 then .ok (.ldStVx (fieldX w))
  else if fieldNN w = 0x1E then .ok (.addIVx (fieldX w))
  else if fieldNN w = 0x29 then .ok (.ldFVx (fieldX w))
  else if fieldNN w = 0x33 then .ok (.ldBVx (fieldX w))
  else if fieldNN w = 0x55 then .ok (.ldMemVx (fieldX w))
  else if fieldNN w = 0x65 then .ok (.ldVxMem (fieldX w))
  else .error (.illegalWord w)

/-- `Decode(w)` (R70): branch on the top nibble, then within the family. A nibble is below 16, so the last branch is family F. -/
def decode (w : Word) : Except DecodeError Instr :=
  if fieldOp w = 0x0 then decodeSystem w
  else if fieldOp w = 0x1 then .ok (.jp (fieldNNN w))
  else if fieldOp w = 0x2 then .ok (.call (fieldNNN w))
  else if fieldOp w = 0x3 then .ok (.seImm (fieldX w) (fieldNN w))
  else if fieldOp w = 0x4 then .ok (.sneImm (fieldX w) (fieldNN w))
  else if fieldOp w = 0x5 then
    if fieldN w = 0 then .ok (.seReg (fieldX w) (fieldY w)) else .error (.illegalWord w)
  else if fieldOp w = 0x6 then .ok (.ldImm (fieldX w) (fieldNN w))
  else if fieldOp w = 0x7 then .ok (.addImm (fieldX w) (fieldNN w))
  else if fieldOp w = 0x8 then decodeAlu w
  else if fieldOp w = 0x9 then
    if fieldN w = 0 then .ok (.sneReg (fieldX w) (fieldY w)) else .error (.illegalWord w)
  else if fieldOp w = 0xA then .ok (.ldI (fieldNNN w))
  else if fieldOp w = 0xB then .ok (.jpV0 (fieldNNN w))
  else if fieldOp w = 0xC then .ok (.rnd (fieldX w) (fieldNN w))
  else if fieldOp w = 0xD then .ok (.drw (fieldX w) (fieldY w) (fieldN w))
  else if fieldOp w = 0xE then decodeKeySkip w
  else decodeMisc w

/-- The instruction at the head of a byte string, and the bytes after it (R60: two bytes, high byte first). -/
def decodeBytes : List Byte → Except DecodeError (Instr × List Byte)
  | hi :: lo :: rest =>
    match decode (wordOfBytes hi lo) with
    | .ok i => .ok (i, rest)
    | .error e => .error e
  | _ => .error .truncated

/-! ### The encoder (R66, R69) -/

/-- Format ADDR of R62: `oooo nnnn nnnn nnnn`. -/
def encodeAddr (op : Nibble) (nnn : Addr12) : Word := op ++ nnn

/-- Format XNN of R62: `oooo xxxx kkkk kkkk`; format XSUB is the same layout with the low byte fixed. -/
def encodeXNN (op : Nibble) (x : Reg) (nn : Byte) : Word := op ++ (bitsOfReg x ++ nn)

/-- Formats XY and XYN of R62: `oooo xxxx yyyy ssss`. -/
def encodeXYN (op : Nibble) (x y : Reg) (n : Nibble) : Word := op ++ (bitsOfReg x ++ (bitsOfReg y ++ n))

/-- `Encode`, "the inverse on legal words" (R69). -/
def encode : Instr → Word
  | .cls => 0x00E0
  | .ret => 0x00EE
  | .jp a => encodeAddr 0x1 a
  | .call a => encodeAddr 0x2 a
  | .seImm x nn => encodeXNN 0x3 x nn
  | .sneImm x nn => encodeXNN 0x4 x nn
  | .seReg x y => encodeXYN 0x5 x y 0x0
  | .ldImm x nn => encodeXNN 0x6 x nn
  | .addImm x nn => encodeXNN 0x7 x nn
  | .ld x y => encodeXYN 0x8 x y 0x0
  | .or x y => encodeXYN 0x8 x y 0x1
  | .and x y => encodeXYN 0x8 x y 0x2
  | .xor x y => encodeXYN 0x8 x y 0x3
  | .add x y => encodeXYN 0x8 x y 0x4
  | .sub x y => encodeXYN 0x8 x y 0x5
  | .shr x y => encodeXYN 0x8 x y 0x6
  | .subn x y => encodeXYN 0x8 x y 0x7
  | .shl x y => encodeXYN 0x8 x y 0xE
  | .sneReg x y => encodeXYN 0x9 x y 0x0
  | .ldI a => encodeAddr 0xA a
  | .jpV0 a => encodeAddr 0xB a
  | .rnd x nn => encodeXNN 0xC x nn
  | .drw x y n => encodeXYN 0xD x y n
  | .skp x => encodeXNN 0xE x 0x9E
  | .sknp x => encodeXNN 0xE x 0xA1
  | .ldVxDt x => encodeXNN 0xF x 0x07
  | .ldVxK x => encodeXNN 0xF x 0x0A
  | .ldDtVx x => encodeXNN 0xF x 0x15
  | .ldStVx x => encodeXNN 0xF x 0x18
  | .addIVx x => encodeXNN 0xF x 0x1E
  | .ldFVx x => encodeXNN 0xF x 0x29
  | .ldBVx x => encodeXNN 0xF x 0x33
  | .ldMemVx x => encodeXNN 0xF x 0x55
  | .ldVxMem x => encodeXNN 0xF x 0x65

/-- The instruction's two bytes in the order they stand in memory (R47). -/
def encodeBytes (i : Instr) : List Byte := [highByte (encode i), lowByte (encode i)]

/-! ### The opcode map (R66) -/

/-- One row of R66: a word `w` selects it when `w & mask = pattern`. -/
structure OpcodeRow where
  mnemonic : String
  mask : Word
  pattern : Word
  build : Word → Instr

/-- Whether a word selects the row (R66). -/
def OpcodeRow.selects (r : OpcodeRow) (w : Word) : Bool := w &&& r.mask = r.pattern

/-- Rows 1 to 9 of R66. -/
def opcodeRowsControl : List OpcodeRow := [
  ⟨"CLS", 0xFFFF, 0x00E0, fun _ => .cls⟩,
  ⟨"RET", 0xFFFF, 0x00EE, fun _ => .ret⟩,
  ⟨"JP_NNN", 0xF000, 0x1000, fun w => .jp (fieldNNN w)⟩,
  ⟨"CALL_NNN", 0xF000, 0x2000, fun w => .call (fieldNNN w)⟩,
  ⟨"SE_Vx__NN", 0xF000, 0x3000, fun w => .seImm (fieldX w) (fieldNN w)⟩,
  ⟨"SNE_Vx__NN", 0xF000, 0x4000, fun w => .sneImm (fieldX w) (fieldNN w)⟩,
  ⟨"SE_Vx__Vy", 0xF00F, 0x5000, fun w => .seReg (fieldX w) (fieldY w)⟩,
  ⟨"LD_Vx__NN", 0xF000, 0x6000, fun w => .ldImm (fieldX w) (fieldNN w)⟩,
  ⟨"ADD_Vx__NN", 0xF000, 0x7000, fun w => .addImm (fieldX w) (fieldNN w)⟩]

/-- Rows 10 to 18 of R66. -/
def opcodeRowsAlu : List OpcodeRow := [
  ⟨"LD_Vx__Vy", 0xF00F, 0x8000, fun w => .ld (fieldX w) (fieldY w)⟩,
  ⟨"OR_Vx__Vy", 0xF00F, 0x8001, fun w => .or (fieldX w) (fieldY w)⟩,
  ⟨"AND_Vx__Vy", 0xF00F, 0x8002, fun w => .and (fieldX w) (fieldY w)⟩,
  ⟨"XOR_Vx__Vy", 0xF00F, 0x8003, fun w => .xor (fieldX w) (fieldY w)⟩,
  ⟨"ADD_Vx__Vy", 0xF00F, 0x8004, fun w => .add (fieldX w) (fieldY w)⟩,
  ⟨"SUB_Vx__Vy", 0xF00F, 0x8005, fun w => .sub (fieldX w) (fieldY w)⟩,
  ⟨"SHR_Vx", 0xF00F, 0x8006, fun w => .shr (fieldX w) (fieldY w)⟩,
  ⟨"SUBN_Vx__Vy", 0xF00F, 0x8007, fun w => .subn (fieldX w) (fieldY w)⟩,
  ⟨"SHL_Vx", 0xF00F, 0x800E, fun w => .shl (fieldX w) (fieldY w)⟩]

/-- Rows 19 to 34 of R66. -/
def opcodeRowsMisc : List OpcodeRow := [
  ⟨"SNE_Vx__Vy", 0xF00F, 0x9000, fun w => .sneReg (fieldX w) (fieldY w)⟩,
  ⟨"LD_I__NNN", 0xF000, 0xA000, fun w => .ldI (fieldNNN w)⟩,
  ⟨"JP_V0__NNN", 0xF000, 0xB000, fun w => .jpV0 (fieldNNN w)⟩,
  ⟨"RND_Vx__NN", 0xF000, 0xC000, fun w => .rnd (fieldX w) (fieldNN w)⟩,
  ⟨"DRW_Vx__Vy__N", 0xF000, 0xD000, fun w => .drw (fieldX w) (fieldY w) (fieldN w)⟩,
  ⟨"SKP_Vx", 0xF0FF, 0xE09E, fun w => .skp (fieldX w)⟩,
  ⟨"SKNP_Vx", 0xF0FF, 0xE0A1, fun w => .sknp (fieldX w)⟩,
  ⟨"LD_Vx__DT", 0xF0FF, 0xF007, fun w => .ldVxDt (fieldX w)⟩,
  ⟨"LD_Vx__K", 0xF0FF, 0xF00A, fun w => .ldVxK (fieldX w)⟩,
  ⟨"LD_DT__Vx", 0xF0FF, 0xF015, fun w => .ldDtVx (fieldX w)⟩,
  ⟨"LD_ST__Vx", 0xF0FF, 0xF018, fun w => .ldStVx (fieldX w)⟩,
  ⟨"ADD_I__Vx", 0xF0FF, 0xF01E, fun w => .addIVx (fieldX w)⟩,
  ⟨"LD_F__Vx", 0xF0FF, 0xF029, fun w => .ldFVx (fieldX w)⟩,
  ⟨"LD_B__Vx", 0xF0FF, 0xF033, fun w => .ldBVx (fieldX w)⟩,
  ⟨"LD__I___Vx", 0xF0FF, 0xF055, fun w => .ldMemVx (fieldX w)⟩,
  ⟨"LD_Vx___I", 0xF0FF, 0xF065, fun w => .ldVxMem (fieldX w)⟩]

/-- The opcode map of R66, rows 1 to 34. -/
def opcodeMap : List OpcodeRow := opcodeRowsControl ++ opcodeRowsAlu ++ opcodeRowsMisc

/-- Decoding by the map alone: the row the word selects, or the failure of R67. -/
def decodeByMap (w : Word) : Except DecodeError Instr :=
  match opcodeMap.find? (fun r => r.selects w) with
  | some r => .ok (r.build w)
  | none => .error (.illegalWord w)

/-! ### The host's question -/

/-- The two bytes, as they stand in memory, of an instruction whose first `nbits` bits are `w` and whose other bits are 0. -/
def tableBytes (nbits w : Nat) : List Byte :=
  [highByte (BitVec.ofNat 16 (w % 2 ^ nbits)), lowByte (BitVec.ofNat 16 (w % 2 ^ nbits))]

/-- The instruction the decoder reads from a word numbered as spec/opcode_table.json numbers it. Every instruction is 16 bits
(R60), so a row of more bits would be none of this machine's. -/
def decodeTableWord (nbits w : Nat) : Option Instr :=
  if 16 < nbits then none
  else match decodeBytes (tableBytes nbits w) with
    | .ok (i, _) => some i
    | .error _ => none

end Sys2Proof
end

