-- ==== Sys2Proof/Config.lean ====
section
/-! DEFINITION. The configuration of R5: the parameters a machine instance is constructed with, the values the spec leaves OPEN
(opaque constants, no body), and the free keypad input of each tick. -/

namespace Sys2Proof

/-- `DRAW_EDGE_POLICY` (R5, R122, D16): what becomes of sprite pixels past the screen's edge. -/
inductive DrawEdgePolicy where
  | clip
  | wrap
  deriving DecidableEq, Repr

/-- `KEY_CONFIRM_POLICY` (R5, R155, D18): when a key wait ends. -/
inductive KeyConfirmPolicy where
  | anyDown
  | pressThenRelease
  deriving DecidableEq, Repr

/-- The configuration record of R5. The parameters the source fixes as widths (`NREGS`, `REG_BITS`, `PC_BITS`, `I_BITS`,
`TIMER_BITS`, `KEYS`, `RNG_BITS`) are the types of State; `MEM_SIZE` and `INSTR_BYTES` are the constants below. -/
structure Config where
  /-- `STACK_CAPACITY`: return-address slots (R18, D6). -/
  stackCapacity : Nat
  /-- `PROGRAM_ORIGIN`: where the image goes, and the reset `pc` (R41, D3). -/
  programOrigin : Nat
  /-- `FONT_BASE`: the address of glyph 0 (R41, D4). -/
  fontBase : Nat
  /-- `GLYPH_SIZE`: bytes per glyph (R191, D4). -/
  glyphSize : Nat
  /-- `FONT_TABLE`: the 16 glyphs' bytes (R191). -/
  fontTable : List Byte
  /-- `DISPLAY_WIDTH` in pixels (R22, D5). -/
  displayWidth : Nat
  /-- `DISPLAY_HEIGHT` in pixels (R22, D5). -/
  displayHeight : Nat
  /-- `RNG_SEED` (R25). -/
  rngSeed : Byte
  /-- `RNG_MUL` (R25). -/
  rngMul : Byte
  /-- `RNG_INC` (R25). -/
  rngInc : Byte
  /-- `DRAW_EDGE_POLICY` (R122). -/
  drawEdge : DrawEdgePolicy
  /-- `INDEX_AUTOINCREMENT` (R139, R140). -/
  indexAutoincrement : Bool
  /-- `KEY_CONFIRM_POLICY` (R155). -/
  keyConfirm : KeyConfirmPolicy
  deriving DecidableEq, Repr

/-- `MEM_SIZE` (R5, R40): bytes of memory, at addresses 0..4095. -/
@[simp] def Config.memSize : Nat := 4096

/-- `INSTR_BYTES` (R5, R60). -/
@[simp] def Config.instrBytes : Nat := 2

/-- `RNG_SEED` is OPEN (R5, U12): any value (log 3). -/
opaque Config.openRngSeed : Byte

/-- `RNG_MUL` is OPEN (R5, U12): any value (log 3). -/
opaque Config.openRngMul : Byte

/-- `RNG_INC` is OPEN (R5, U12): any value (log 3). -/
opaque Config.openRngInc : Byte

/-- Byte `j` of `FONT_TABLE` is OPEN (R5, U13): any value for each of the 80 bytes (log 3). -/
opaque Config.openFontByte : Nat → Byte

/-- The keypad snapshot of a tick is a free input (R151, U22): any value for each tick (log 2). -/
opaque Config.freeKeypad : Nat → Keypad

/-- The hardware's configuration: the values and defaults of R5, with the four OPEN parameters left open (log 3, log 4). -/
def Config.machine : Config where
  stackCapacity := 32
  programOrigin := 0x200
  fontBase := 0
  glyphSize := 5
  fontTable := (List.range 80).map Config.openFontByte
  displayWidth := 64
  displayHeight := 32
  rngSeed := Config.openRngSeed
  rngMul := Config.openRngMul
  rngInc := Config.openRngInc
  drawEdge := .clip
  indexAutoincrement := false
  keyConfirm := .pressThenRelease

end Sys2Proof
end

