-- ==== Sys2Proof/Machine/State.lean ====
section
/-! DEFINITION. The machine's state (R10), the ways a step ends without a next state (R170), and the state after reset (R190). -/

namespace Sys2Proof.Machine

/-- The failures of R170. Each is precise: the machine is as it was when the operation began (R171); the outcome carries no
state, which says so (log 6). -/
inductive Fault where
  /-- Raised by a tick whose fetched word is illegal; carries the raw word (R172). Safe: the spec names this failure. -/
  | decodeFailure (w : Word)
  /-- Raised by a fetch, `DRW`, `LD B, Vx`, `LD [I], Vx` or `LD Vx, [I]` that would touch an address above 4095; carries the
  lowest such address (R173). Safe; a claim about the address carried rests on D11 (log 14). -/
  | outOfBoundsMemoryAccess (a : Nat)
  /-- Raised by `Load` only: the image is longer than `MEM_SIZE - PROGRAM_ORIGIN` (R174, R192). Safe. -/
  | programTooLarge
  /-- Raised by `CALL` on a full stack (R175). Safe. -/
  | stackOverflow
  /-- Raised by `RET` on an empty stack (R176). Safe. -/
  | stackUnderflow
  deriving DecidableEq, Repr

/-- What the model gives no meaning. -/
inductive Refusal where
  /-- An instruction without a meaning; no arm of `exec` answers it. Safe. -/
  | notModelled (mnemonic : String)
  /-- Raised by `load` after the first tick or after an earlier load, "outside what the source describes" (R192, U16, D27).
  Safe (log 9). -/
  | loadOutsideBoot
  /-- Raised by `boot` when the configuration breaks a constraint of R5. Safe (log 15). -/
  | badConfiguration
  deriving DecidableEq, Repr

/-- The key-wait state `kw` (R24). -/
inductive KeyWait where
  | running
  | awaitingKey (r : Reg)
  | captured (r : Reg) (k : Key)
  deriving DecidableEq, Repr

/-- Memory as the bytes that differ from the reset contents: pairs of address and byte, addresses strictly rising (log 5). -/
abbrev Memory := List Host.Cell

/-- The framebuffer: row `y`, then column `x` (R22). -/
abbrev Framebuffer := List (List Bool)

/-- The complete state of one machine instance (R10), and the inputs the host's interface gives `step` no argument for. -/
structure State where
  /-- The configuration of R5; an input (R10), written by no step (log 1). -/
  cfg : Config
  /-- `V[0..15]` (R11). -/
  v : Vector Byte 16
  /-- `pc` (R15). -/
  pc : Word
  /-- `I` (R17). -/
  index : Word
  /-- `S[0..STACK_CAPACITY-1]` (R18). -/
  stack : List Word
  /-- `SP` (R18). -/
  sp : Nat
  /-- `DT` (R20). -/
  dt : Byte
  /-- `ST` (R20). -/
  st : Byte
  /-- `rng` (R25). -/
  rng : Byte
  /-- `kw` (R24). -/
  kw : KeyWait
  /-- `mem[0..4095]` (R40). -/
  mem : Memory
  /-- `FB` (R22). -/
  fb : Framebuffer
  /-- The model's own: the keypad snapshots laid out for the coming ticks, the next one first (log 2). -/
  keypads : List Keypad
  /-- The model's own: how many ticks have succeeded (log 2). -/
  ticks : Nat
  /-- The model's own: whether an image has been loaded (log 9). -/
  loaded : Bool
  deriving DecidableEq, Repr

/-- `Reset(config)` (R190). The last three fields are the model's own (log 12). -/
def State.resetWith (c : Config) : State where
  cfg := c
  v := Vector.replicate 16 0
  pc := BitVec.ofNat 16 c.programOrigin
  index := 0
  stack := List.replicate c.stackCapacity 0
  sp := 0
  dt := 0
  st := 0
  rng := c.rngSeed
  kw := .running
  mem := []
  fb := List.replicate c.displayHeight (List.replicate c.displayWidth false)
  keypads := []
  ticks := 0
  loaded := false

/-- The machine right after reset (R190), in the hardware's configuration. -/
def State.reset : State := State.resetWith Config.machine

end Sys2Proof.Machine
end

