-- ==== Sys2Proof/Machine/Ops.lean ====
section
/-! DEFINITION. The named operations over State that the meanings share: failing, registers, the program counter, memory, the
stack, the timers, the random number, and the tick's input. -/

namespace Sys2Proof.Machine

/-- What an instruction or a step answers. -/
abbrev Result := Host.Outcome State Fault Refusal

/-! ### Failing (R170, R171, R179) -/

/-- `raise F(info)` (R7): the tick ends with the failure, which goes to the host. There is "no handler inside the machine, no
vector, no saved `pc`, no mode change" (R179) and no return from it (R180); nothing has changed (R171). -/
def raise (f : Fault) : Result := .fault f

/-- What follows a success; a failure or a refusal ends the tick as it is. -/
def onNext (r : Result) (k : State → State) : Result :=
  match r with
  | .next s => .next (k s)
  | .fault f => .fault f
  | .refused q => .refused q

/-! ### General registers (R11, R12) -/

/-- `V[r]`. -/
def State.readV (s : State) (r : Reg) : Byte := s.v[r.val]

/-- `V[r] <- b`. -/
def State.writeV (s : State) (r : Reg) (b : Byte) : State := { s with v := s.v.set r.val b }

/-- The registers `V[j]`, `V[j+1]`, ... loaded from a list of bytes, in ascending order. -/
def setRegsFrom (v : Vector Byte 16) (j : Nat) : List Byte → Vector Byte 16
  | [] => v
  | b :: bs => setRegsFrom (v.setIfInBounds j b) (j + 1) bs

/-- "for j in 0 .. X: V[j] <- t[j]" (R140). -/
def State.loadRegs (s : State) (bs : List Byte) : State := { s with v := setRegsFrom s.v 0 bs }

/-! ### Program counter and index register (R15, R17) -/

/-- `pc <- t`. -/
def State.setPc (s : State) (t : Word) : State := { s with pc := t }

/-- `pc <- pc + 2`: one instruction width (R15). -/
def State.advance (s : State) : State := s.setPc (s.pc + 2)

/-- The two values a skip may give `pc`: "`pc + 2` and `pc + 4`" (R94). -/
def State.skipIf (s : State) (matched : Bool) : State := s.setPc (if matched then s.pc + 4 else s.pc + 2)

/-- `I <- v`. -/
def State.setIndex (s : State) (v : Word) : State := { s with index := v }

/-- "if INDEX_AUTOINCREMENT then I <- I + X + 1", with `n = X + 1` (R139, R140). -/
def State.autoIndex (s : State) (n : Nat) : State :=
  if s.cfg.indexAutoincrement then s.setIndex (s.index + BitVec.ofNat 16 n) else s

/-! ### Memory (R40 to R49) -/

/-- What an address that memory does not list reads as: the reset contents, `FONT_TABLE` at `FONT_BASE` and 0 elsewhere
(R41, R190). -/
def initialByte (c : Config) (a : Nat) : Byte :=
  if c.fontBase ≤ a ∧ a < c.fontBase + 16 * c.glyphSize then c.fontTable.getD (a - c.fontBase) 0 else 0

/-- The listed byte at an address, if there is one. -/
def Memory.lookup : Memory → Nat → Option Byte
  | [], _ => none
  | (k, b) :: m, a => if a = k then some b else Memory.lookup m a

/-- `mem[a]`. -/
def Memory.read (c : Config) (m : Memory) (a : Nat) : Byte := (m.lookup a).getD (initialByte c a)

/-- A pair put in its place in the rising list, over any pair of the same address. -/
def Memory.insert : Memory → Nat → Byte → Memory
  | [], a, b => [(a, b)]
  | (k, x) :: m, a, b =>
    if a < k then (a, b) :: (k, x) :: m
    else if a = k then (a, b) :: m
    else (k, x) :: Memory.insert m a b

/-- `mem[a] <- b`, kept canonical: writing what an unlisted address reads as unlists it. -/
def Memory.write (c : Config) (m : Memory) (a : Nat) (b : Byte) : Memory :=
  if b = initialByte c a then m.filter (fun p => p.1 ≠ a) else m.insert a b

/-- The bytes written at ascending addresses from `a` (R49). -/
def Memory.writeAll (c : Config) (m : Memory) (a : Nat) : List Byte → Memory
  | [] => m
  | b :: bs => Memory.writeAll c (m.write c a b) (a + 1) bs

/-- The canonical form: addresses strictly rising, every one in 0..4095, and no byte equal to the reset contents. -/
abbrev Memory.wf (c : Config) (m : Memory) : Prop :=
  m.Pairwise (fun p q => p.1 < q.1) ∧ ∀ p ∈ m, p.1 < Config.memSize ∧ p.2 ≠ initialByte c p.1

/-- The byte at `a`, for an address already known to be in range. -/
def State.readByte (s : State) (a : Nat) : Byte := Memory.read s.cfg s.mem a

/-- The `n` bytes at `a`, `a + 1`, ..., for a range already checked. -/
def State.readBytes (s : State) (a n : Nat) : List Byte := (List.range n).map (fun j => s.readByte (a + j))

/-- Bytes stored at `a`, `a + 1`, ..., for a range already checked. -/
def State.writeBytes (s : State) (a : Nat) (bs : List Byte) : State :=
  { s with mem := Memory.writeAll s.cfg s.mem a bs }

/-- `MemRead(a, 1)` (R43). -/
def memRead (s : State) (a : Nat) : Except Fault Byte :=
  if a < Config.memSize then .ok (s.readByte a) else .error (.outOfBoundsMemoryAccess a)

/-- `MemWrite(a, 1, v)` (R44). -/
def memWrite (s : State) (a : Nat) (b : Byte) : Except Fault State :=
  if a < Config.memSize then .ok (s.writeBytes a [b]) else .error (.outOfBoundsMemoryAccess a)

/-- `Fetch(a)` (R45): byte `a`, then byte `a + 1`, first byte high. -/
def fetch (s : State) (a : Nat) : Except Fault Word :=
  match memRead s a with
  | .error f => .error f
  | .ok hi =>
    match memRead s (a + 1) with
    | .error f => .error f
    | .ok lo => .ok (wordOfBytes hi lo)

/-- `CheckRange(a, n)` (R46). -/
def checkRange (a n : Nat) : Except Fault Unit :=
  if n = 0 then .ok ()
  else if a + n - 1 < Config.memSize then .ok ()
  else .error (.outOfBoundsMemoryAccess (max a Config.memSize))

/-- An instruction's accesses to `n` bytes at `a`: the range is checked before the first read or write (R46). -/
def withRange (a n : Nat) (effect : Result) : Result :=
  match checkRange a n with
  | .error f => raise f
  | .ok _ => effect

/-! ### Stack (R18, R19) -/

/-- "S[SP] <- w; SP <- SP + 1" (R82). -/
def State.push (s : State) (w : Word) : State := { s with stack := s.stack.set s.sp w, sp := s.sp + 1 }

/-- The newest return address, `S[SP-1]` (R83). -/
def State.newest (s : State) : Word := s.stack.getD (s.sp - 1) 0

/-- "SP <- SP - 1"; the slot keeps its value (R19, R83). -/
def State.pop (s : State) : State := { s with sp := s.sp - 1 }

/-! ### Timers and random number (R20, R25) -/

/-- `DT <- b`. -/
def State.setDt (s : State) (b : Byte) : State := { s with dt := b }

/-- `ST <- b`. -/
def State.setSt (s : State) (b : Byte) : State := { s with st := b }

/-- A timer "decremented by exactly one unit per tick when nonzero"; at 0 it stays 0 (R20). -/
def countDown (t : Byte) : Byte := if t = 0 then 0 else t - 1

/-- `TimerStep()` (R157). -/
def State.timerStep (s : State) : State := { s with dt := countDown s.dt, st := countDown s.st }

/-- "(RNG_MUL * rng + RNG_INC) mod 256" (R25). -/
def nextRandom (c : Config) (rng : Byte) : Byte := c.rngMul * rng + c.rngInc

/-- `rng <- r`. -/
def State.setRng (s : State) (r : Byte) : State := { s with rng := r }

/-! ### Key wait and framebuffer (R22, R24) -/

/-- `kw <- k`. -/
def State.setKw (s : State) (k : KeyWait) : State := { s with kw := k }

/-- A new framebuffer. -/
def State.setFb (s : State) (f : Framebuffer) : State := { s with fb := f }

/-! ### The tick's input (R151) -/

/-- The snapshot of the present tick: the one the host has laid out, else the free input of this tick (log 2). -/
def State.keypad (s : State) : Keypad :=
  match s.keypads with
  | k :: _ => k
  | [] => Config.freeKeypad s.ticks

/-- `key(k)` (R151). -/
def State.keyDown (s : State) (k : Key) : Bool := s.keypad[k.val]

/-- A snapshot given as a byte array: an entry is down when it is non-zero (R151). -/
def keypadOfBytes (bytes : Vector Byte 16) : Keypad := bytes.map (fun b => b != 0)

/-- A tick's snapshot is used up: "the machine keeps no copy" (R151). -/
def State.nextInput (s : State) : State := { s with keypads := s.keypads.tail, ticks := s.ticks + 1 }

/-- The end of a successful tick: the timer step, once (R154, R157), and the snapshot is gone. -/
def State.endTick (s : State) : State := s.timerStep.nextInput

end Sys2Proof.Machine
end

