-- ==== Sys2Proof/Machine/Flags.lean ====
section
/-! DEFINITION. The flag computations of R14: each flag is "exactly 0 or 1". -/

namespace Sys2Proof.Machine

/-- "A comparison used as a number is 1 when true and 0 when false" (R6). -/
def flagByte (b : Bool) : Byte := if b then 1 else 0

/-- Carry out of bit 7 of `a + b` (R106): "(s > 255) ? 1 : 0" of the 9-bit sum. -/
def carryOut (a b : Byte) : Byte := flagByte (255 < a.toNat + b.toNat)

/-- NOT borrow of `a - b` (R107, D12): "(a >= b) ? 1 : 0". -/
def noBorrow (a b : Byte) : Byte := flagByte (b.toNat ≤ a.toNat)

/-- The bit a right shift pushes out, `a[0]` (R108). -/
def bitOutRight (a : Byte) : Byte := flagByte (a.getLsbD 0)

/-- The bit a left shift pushes out, `a[7]` (R110). -/
def bitOutLeft (a : Byte) : Byte := flagByte (a.getLsbD 7)

/-- A result and then the flag, written last, so that with `X = 15` the flag survives (R14, R112, D13). -/
def State.writeWithFlag (s : State) (x : Reg) (result flag : Byte) : State := (s.writeV x result).writeV Reg.vf flag

end Sys2Proof.Machine
end

