-- ==== Sys2Proof/Machine/Alu.lean ====
section
/-! DEFINITION. Register load and ALU instructions (R100 to R112). All operands are read from the state before the instruction
(R8); none of these can fail (R111). -/

namespace Sys2Proof.Machine

/-- "V[X] <- r; pc <- pc + 2". -/
def State.finish (s : State) (x : Reg) (r : Byte) : Result := .next (s.writeV x r).advance

/-- "V[X] <- r; V[15] <- f; pc <- pc + 2" (R112). -/
def State.finishFlag (s : State) (x : Reg) (r f : Byte) : Result := .next (s.writeWithFlag x r f).advance

/-- `LD Vx, NN` (R100). -/
def execLdImm (x : Reg) (nn : Byte) (s : State) : Result := s.finish x nn

/-- `ADD Vx, NN` (R101): modulo 256, no flag. -/
def execAddImm (x : Reg) (nn : Byte) (s : State) : Result := s.finish x (s.readV x + nn)

/-- `LD Vx, Vy` (R102). -/
def execLd (x y : Reg) (s : State) : Result := s.finish x (s.readV y)

/-- `OR Vx, Vy` (R103). -/
def execOr (x y : Reg) (s : State) : Result := s.finish x (s.readV x ||| s.readV y)

/-- `AND Vx, Vy` (R104). -/
def execAnd (x y : Reg) (s : State) : Result := s.finish x (s.readV x &&& s.readV y)

/-- `XOR Vx, Vy` (R105). -/
def execXor (x y : Reg) (s : State) : Result := s.finish x (s.readV x ^^^ s.readV y)

/-- `ADD Vx, Vy` (R106). -/
def execAdd (x y : Reg) (s : State) : Result :=
  s.finishFlag x (s.readV x + s.readV y) (carryOut (s.readV x) (s.readV y))

/-- `SUB Vx, Vy` (R107). -/
def execSub (x y : Reg) (s : State) : Result :=
  s.finishFlag x (s.readV x - s.readV y) (noBorrow (s.readV x) (s.readV y))

/-- `SHR Vx` (R108): logical, by one place; `V[Y]` is "neither read nor written" (D14). -/
def execShr (x _y : Reg) (s : State) : Result := s.finishFlag x (s.readV x >>> 1) (bitOutRight (s.readV x))

/-- `SUBN Vx, Vy` (R109). -/
def execSubn (x y : Reg) (s : State) : Result :=
  s.finishFlag x (s.readV y - s.readV x) (noBorrow (s.readV y) (s.readV x))

/-- `SHL Vx` (R110): by one place; field `Y` is ignored (D14). -/
def execShl (x _y : Reg) (s : State) : Result := s.finishFlag x (s.readV x <<< 1) (bitOutLeft (s.readV x))

end Sys2Proof.Machine
end

