-- ==== Sys2Proof/Machine/Display.lean ====
section
/-! DEFINITION. The framebuffer's pixels, clearing it, and the sprite loop of `DRW` (R22, R80, R122). -/

namespace Sys2Proof.Machine

/-- `FB[y][x]` (R22). -/
def pixel (fb : Framebuffer) (x y : Nat) : Bool := (fb.getD y []).getD x false

/-- "FB[y][x] <- FB[y][x] ^ 1" (R122). -/
def flipPixel (fb : Framebuffer) (x y : Nat) : Framebuffer := fb.modify y (fun row => row.modify x not)

/-- Every pixel off, the size unchanged (R80). -/
def clearAll (fb : Framebuffer) : Framebuffer := fb.map (fun row => row.map (fun _ => false))

/-- Where a sprite pixel at `(px, py)` lands under `DRAW_EDGE_POLICY` (R122): dropped past the edge, or brought back. -/
def placePixel (c : Config) (px py : Nat) : Option (Nat × Nat) :=
  match c.drawEdge with
  | .clip => if c.displayWidth ≤ px ∨ c.displayHeight ≤ py then none else some (px, py)
  | .wrap => some (px % c.displayWidth, py % c.displayHeight)

/-- The pixels one row of a sprite turns over, left to right: "bit 7 is the leftmost pixel" (R122). -/
def rowTargets (c : Config) (x0 py : Nat) (row : Byte) : List (Nat × Nat) :=
  (List.range 8).filterMap (fun col => if row.getLsbD (7 - col) then placePixel c (x0 + col) py else none)

/-- The pixels a sprite turns over, row by row downwards (R122). -/
def spriteTargets (c : Config) (x0 : Nat) : Nat → List Byte → List (Nat × Nat)
  | _, [] => []
  | py, row :: rows => rowTargets c x0 py row ++ spriteTargets c x0 (py + 1) rows

/-- One turn of R122's inner loop: note a collision, then flip. -/
def drawPixel (acc : Framebuffer × Bool) (p : Nat × Nat) : Framebuffer × Bool :=
  (flipPixel acc.1 p.1 p.2, acc.2 || pixel acc.1 p.1 p.2)

/-- R122's loops: the new framebuffer, and whether a lit pixel was turned off. -/
def drawSprite (c : Config) (fb : Framebuffer) (x0 y0 : Nat) (rows : List Byte) : Framebuffer × Bool :=
  (spriteTargets c x0 y0 rows).foldl drawPixel (fb, false)

/-- "V[X] mod W" (R122). -/
def startColumn (c : Config) (v : Byte) : Nat := v.toNat % c.displayWidth

/-- "V[Y] mod H" (R122). -/
def startRow (c : Config) (v : Byte) : Nat := v.toNat % c.displayHeight

end Sys2Proof.Machine
end

