-- ==== Sys2Proof/Machine/Operands.lean ====
section
/-! DEFINITION. The operand forms beyond a plain register or immediate: zero-extended addresses, the low nibble of a register,
the glyph address, decimal digits, a register range (R63, R130, R137, R138, R139). -/

namespace Sys2Proof.Machine

/-- `zext_16(NNN)` (R63). -/
def zext12 (a : Addr12) : Word := a.setWidth 16

/-- `zext_16(V[X])` (R84, R136). -/
def zext8 (b : Byte) : Word := b.setWidth 16

/-- `V[X][3:0]`, a key code or a hexadecimal digit (R130, R137, D19, D20). -/
def lowNibble (b : Byte) : Fin 16 := regOfBits (b.extractLsb' 0 4)

/-- "FONT_BASE + d * GLYPH_SIZE" (R137). -/
def glyphAddress (c : Config) (d : Fin 16) : Word := BitVec.ofNat 16 (c.fontBase + d.val * c.glyphSize)

/-- The three decimal digits, hundreds first (R138, D21). -/
def decimalDigits (v : Byte) : List Byte := [v / 100, (v / 10) % 10, v % 10]

/-- `V[0] .. V[X]` (R139). -/
def State.regRange (s : State) (x : Reg) : List Byte := (s.v.toList).take (x.val + 1)

end Sys2Proof.Machine
end

