-- ==== Sys2Proof/Machine/Control.lean ====
section
/-! DEFINITION. System and control flow: `CLS`, `RET`, `JP`, `CALL`, `JP V0` (R80 to R84). In each, `s.pc` is the address the
instruction was fetched from (R15). -/

namespace Sys2Proof.Machine

/-- `CLS` (R80). -/
def execCls (s : State) : Result := .next (s.setFb (clearAll s.fb)).advance

/-- `RET` (R83). -/
def execRet (s : State) : Result :=
  if s.sp = 0 then raise .stackUnderflow else .next (s.pop.setPc s.newest)

/-- `JP NNN` (R81). -/
def execJp (addr : Addr12) (s : State) : Result := .next (s.setPc (zext12 addr))

/-- `CALL NNN` (R82). `SP` never exceeds the capacity (R19); a state where it does overflows too (log 7). -/
def execCall (addr : Addr12) (s : State) : Result :=
  if s.cfg.stackCapacity ≤ s.sp then raise .stackOverflow else .next ((s.push (s.pc + 2)).setPc (zext12 addr))

/-- `JP V0, NNN` (R84). -/
def execJpV0 (addr : Addr12) (s : State) : Result := .next (s.setPc (zext12 addr + zext8 (s.readV 0)))

end Sys2Proof.Machine
end

