-- ==== Sys2Proof/Machine/Draw.lean ====
section
/-! DEFINITION. Index load, random number and sprite draw (R120 to R123). -/

namespace Sys2Proof.Machine

/-- `LD I, NNN` (R120). -/
def execLdI (addr : Addr12) (s : State) : Result := .next (s.setIndex (zext12 addr)).advance

/-- `RND Vx, NN` (R121): `rng` advances once, and the byte delivered is the new one under the mask (D23). -/
def execRnd (x : Reg) (nn : Byte) (s : State) : Result :=
  .next (((s.setRng (nextRandom s.cfg s.rng)).writeV x (nextRandom s.cfg s.rng &&& nn)).advance)

/-- What `DRW` draws: the new framebuffer and the collision (R122). -/
def State.drawn (s : State) (x y : Reg) (n : Nibble) : Framebuffer × Bool :=
  drawSprite s.cfg s.fb (startColumn s.cfg (s.readV x)) (startRow s.cfg (s.readV y)) (s.readBytes s.index.toNat n.toNat)

/-- `DRW Vx, Vy, N` (R122): the range is checked first, `VF` is written last, on every draw. -/
def execDrw (x y : Reg) (n : Nibble) (s : State) : Result :=
  withRange s.index.toNat n.toNat
    (.next (((s.setFb (s.drawn x y n).1).writeV Reg.vf (flagByte (s.drawn x y n).2)).advance))

end Sys2Proof.Machine
end

