-- ==== Sys2Proof/Machine/Misc.lean ====
section
/-! DEFINITION. Timers, key wait, index arithmetic, font, decimal store and block transfers (R132 to R140). None of them writes
`VF` as a side effect (R14). -/

namespace Sys2Proof.Machine

/-- `LD Vx, DT` (R132): the value before this tick's decrement. -/
def execLdVxDt (x : Reg) (s : State) : Result := s.finish x s.dt

/-- `LD Vx, K` (R133): only enters the wait; neither `pc` nor `V[X]` is written. -/
def execLdVxK (x : Reg) (s : State) : Result := .next (s.setKw (.awaitingKey x))

/-- `LD DT, Vx` (R134). -/
def execLdDtVx (x : Reg) (s : State) : Result := .next (s.setDt (s.readV x)).advance

/-- `LD ST, Vx` (R135). -/
def execLdStVx (x : Reg) (s : State) : Result := .next (s.setSt (s.readV x)).advance

/-- `ADD I, Vx` (R136): modulo 65536, no flag, no bound. -/
def execAddIVx (x : Reg) (s : State) : Result := .next (s.setIndex (s.index + zext8 (s.readV x))).advance

/-- `LD F, Vx` (R137). -/
def execLdFVx (x : Reg) (s : State) : Result := .next (s.setIndex (glyphAddress s.cfg (lowNibble (s.readV x)))).advance

/-- `LD B, Vx` (R138): `I` is never changed. -/
def execLdBVx (x : Reg) (s : State) : Result :=
  withRange s.index.toNat 3 (.next (s.writeBytes s.index.toNat (decimalDigits (s.readV x))).advance)

/-- `LD [I], Vx` (R139). -/
def execLdMemVx (x : Reg) (s : State) : Result :=
  withRange s.index.toNat (x.val + 1)
    (.next ((s.writeBytes s.index.toNat (s.regRange x)).autoIndex (x.val + 1)).advance)

/-- `LD Vx, [I]` (R140). -/
def execLdVxMem (x : Reg) (s : State) : Result :=
  withRange s.index.toNat (x.val + 1)
    (.next ((s.loadRegs (s.readBytes s.index.toNat (x.val + 1))).autoIndex (x.val + 1)).advance)

end Sys2Proof.Machine
end

