-- ==== Sys2Proof/Machine/KeyWait.lean ====
section
/-! DEFINITION. The key-wait arms of a tick (R155, R156), which complete `LD Vx, K`. No failure is possible in them. -/

namespace Sys2Proof.Machine

/-- "the least k in 0..15 with key(k) = 1", if there is one (R155). -/
def State.leastKeyDown (s : State) : Option Key := (List.finRange 16).find? (fun k => s.keyDown k)

/-- "V[r] <- k; pc <- pc + 2; kw <- Running" (R155, R156). -/
def State.commitKey (s : State) (r : Reg) (k : Key) : State :=
  ((s.writeV r (BitVec.ofNat 8 k.val)).advance).setKw .running

/-- `KeyWaitStepA(r, keypad)` (R155). -/
def State.keyWaitAwaiting (s : State) (r : Reg) : State :=
  match s.leastKeyDown with
  | none => s
  | some k =>
    match s.cfg.keyConfirm with
    | .anyDown => s.commitKey r k
    | .pressThenRelease => s.setKw (.captured r k)

/-- `KeyWaitStepC(r, k, keypad)` (R156): only key `k` is watched. -/
def State.keyWaitCaptured (s : State) (r : Reg) (k : Key) : State :=
  if s.keyDown k then s else s.commitKey r k

end Sys2Proof.Machine
end

