-- ==== Sys2Proof/Machine/Tick.lean ====
section
/-! DEFINITION. The parts of one tick (R154) that Step puts together: fetch and decode at `pc`, the running arm, the waiting
arms; and the placing of a word where the next fetch reads it. -/

namespace Sys2Proof.Machine

/-- Fetch, then decode: the instruction at `pc` or the tick's failure (R154, R177). -/
def State.fetchDecode (s : State) : Except Fault Instr :=
  match fetch s s.pc.toNat with
  | .error f => .error f
  | .ok w =>
    match decode w with
    | .ok i => .ok i
    | .error _ => .error (.decodeFailure w)

/-- The running arm of R154, before the timer step. -/
def State.runInstr (s : State) : Result :=
  match s.fetchDecode with
  | .error f => raise f
  | .ok i => exec i s

/-- The arm that `kw` selects "as it is when the tick begins"; exactly one runs (R154). -/
def State.tickArm (s : State) : Result :=
  match s.kw with
  | .running => s.runInstr
  | .awaitingKey r => .next (s.keyWaitAwaiting r)
  | .captured r k => .next (s.keyWaitCaptured r k)

/-- A `pc` from which the next fetch succeeds: the present one, or the reset entry point 0x200 where the present one is out of
the fetch's range (log 11). -/
def State.fetchablePc (s : State) : Word := if s.pc.toNat + 1 < Config.memSize then s.pc else 0x200

/-- The two bytes of a table word placed at the fetch address, the machine running (log 10, log 11). -/
def State.placeWord (s : State) (nbits w : Nat) : State :=
  { s with
    pc := s.fetchablePc
    kw := .running
    mem := Memory.writeAll s.cfg s.mem s.fetchablePc.toNat (tableBytes nbits w) }

end Sys2Proof.Machine
end

