-- ==== Sys2Proof/Machine/Step.lean ====
section
/-! DEFINITION. One step of the machine: one successful tick, or the tick's failure (R154). -/

namespace Sys2Proof.Machine

/-- `Tick` (R154), under the snapshot `State.keypad` holds: one arm, then the timer step; a failure skips it (R171). -/
def step (s : State) : Host.Outcome State Fault Refusal := onNext s.tickArm State.endTick

/-- The state with an instruction's word stored where the next step fetches (log 10). -/
def State.withFetchWord (s : State) (nbits w : Nat) : State := s.placeWord nbits w

end Sys2Proof.Machine
end

