-- ==== Sys2Proof/WellFormed.lean ====
section
/-! DEFINITION. The checks of what the machine is given from outside. An instruction needs none: the operand types of `Instr`
hold exactly the values the encoding admits (R61, R63). A configuration must meet the constraints of R5, one named check each,
and a program image must fit (R192). -/

namespace Sys2Proof

/-- R5: "`STACK_CAPACITY >= 16`". -/
def Config.stackBigEnough (c : Config) : Bool := 16 ≤ c.stackCapacity

/-- R5: "`FONT_BASE + 16*GLYPH_SIZE <= PROGRAM_ORIGIN`". -/
def Config.fontBelowOrigin (c : Config) : Bool := c.fontBase + 16 * c.glyphSize ≤ c.programOrigin

/-- R5: "`PROGRAM_ORIGIN <= MEM_SIZE`". -/
def Config.originInMemory (c : Config) : Bool := c.programOrigin ≤ Config.memSize

/-- R5: `FONT_TABLE` is "16 × GLYPH_SIZE constant bytes". -/
def Config.fontComplete (c : Config) : Bool := c.fontTable.length = 16 * c.glyphSize

/-- R5: "`DISPLAY_WIDTH >= 8`". -/
def Config.wideEnough (c : Config) : Bool := 8 ≤ c.displayWidth

/-- R5: "`DISPLAY_HEIGHT >= 15`". -/
def Config.highEnough (c : Config) : Bool := 15 ≤ c.displayHeight

/-- "Constraints the model must check of a configuration" (R5). -/
def Config.wf (c : Config) : Bool :=
  c.stackBigEnough && c.fontBelowOrigin && c.originInMemory && c.fontComplete && c.wideEnough && c.highEnough

/-- R192: an image is accepted when it is no longer than `MEM_SIZE - PROGRAM_ORIGIN`. -/
def Config.imageFits (c : Config) (image : List Byte) : Bool := image.length ≤ Config.memSize - c.programOrigin

end Sys2Proof
end

