-- ==== Sys2Proof/Machine/Interface.lean ====
section
/-! DEFINITION. What a host can call and read (R150): `Reset`, `Load`, `Tick`, the framebuffer and the beep flag. -/

namespace Sys2Proof.Machine

/-- `Load(bytes)` (R192): the image copied verbatim to `PROGRAM_ORIGIN`, or `ProgramTooLarge` with memory unchanged. After the
first tick, or a second time, it is given no meaning (D27, U16; log 9). -/
def load (s : State) (image : List Byte) : Result :=
  if s.loaded ∨ s.ticks ≠ 0 then .refused .loadOutsideBoot
  else if s.cfg.imageFits image then .next { s.writeBytes s.cfg.programOrigin image with loaded := true }
  else raise .programTooLarge

/-- The boot sequence: "`Reset`, then one `Load`, then ticks" (R192), of a configuration that meets R5's constraints. -/
def boot (c : Config) (image : List Byte) : Result :=
  if c.wf then load (State.resetWith c) image else .refused .badConfiguration

/-- The host's snapshot for the next tick. -/
def State.supply (s : State) (k : Keypad) : State := { s with keypads := k :: s.keypads }

/-- What `Tick` returns to the host (R150, R154). -/
inductive TickResult where
  | success
  | failure (f : Fault)
  | noMeaning (r : Refusal)
  deriving DecidableEq, Repr

/-- `Tick(keypad)` as the host sees it: the result, and the machine after it, which a failing tick leaves as it was (R171). -/
def tick (s : State) (k : Keypad) : TickResult × State :=
  match step (s.supply k) with
  | .next t => (.success, t)
  | .fault f => (.failure f, s)
  | .refused r => (.noMeaning r, s)

/-- The framebuffer accessor: the pixels in row-major order (R22, R152). -/
def State.framebufferBits (s : State) : List Bool := s.fb.flatten

/-- The beep accessor: "true iff sound timer is currently nonzero" (R153). -/
def State.beep (s : State) : Bool := s.st != 0

/-- The failure codes of R170, the spec's own numbering. -/
def Fault.code : Fault → Nat
  | .decodeFailure _ => 1
  | .outOfBoundsMemoryAccess _ => 2
  | .programTooLarge => 3
  | .stackOverflow => 4
  | .stackUnderflow => 5

end Sys2Proof.Machine
end

