-- ==== Sys2Proof/Safety.lean ====
section
/-! DEFINITION. The words the claims are stated in: the machine's invariant (R28), the parts of the state and what it is to keep
them, and safe runs. -/

namespace Sys2Proof.Machine

/-- The invariant of R28 ("after reset and after every tick, successful or not"), with the shapes R18, R22 and the canonical
form of memory, and with what makes its bound on `pc` inductive: a return address is at most 4096 (R82), and while a key wait is
pending `pc` is the address of a fetched `LD Vx, K` (R156). -/
structure State.Inv (s : State) : Prop where
  /-- The configuration meets the constraints of R5. -/
  cfg_wf : s.cfg.wf = true
  /-- Memory is in canonical form. -/
  mem_wf : Memory.wf s.cfg s.mem
  /-- There are `STACK_CAPACITY` slots (R18). -/
  stack_size : s.stack.length = s.cfg.stackCapacity
  /-- "`0 <= SP <= STACK_CAPACITY`" (R28). -/
  sp_le : s.sp ≤ s.cfg.stackCapacity
  /-- Every slot holds at most 4096 (R82). -/
  slots_le : ∀ w ∈ s.stack, w.toNat ≤ 4096
  /-- "the framebuffer's size has not changed" (R28): its rows. -/
  fb_height : s.fb.length = s.cfg.displayHeight
  /-- The framebuffer's size: every row's pixels. -/
  fb_width : ∀ row ∈ s.fb, row.length = s.cfg.displayWidth
  /-- "`pc <= 0x10FE`" (R28). -/
  pc_le : s.pc.toNat ≤ 0x10FE
  /-- A pending wait stands at a fetchable `pc`. -/
  wait_pc : s.kw ≠ .running → s.pc.toNat + 1 < Config.memSize

/-- The parts of the state of R10, register by register, slot by slot, byte by byte, and the model's own fields. -/
inductive Part where
  | pc
  | reg (r : Reg)
  | index
  | slot (k : Nat)
  | sp
  | delay
  | sound
  | random
  | keyWait
  | byte (a : Nat)
  | screen
  | config
  | input
  | loaded
  deriving DecidableEq, Repr

/-- That two states agree on a part. -/
def Part.Same (s t : State) : Part → Prop
  | .pc => t.pc = s.pc
  | .reg r => t.readV r = s.readV r
  | .index => t.index = s.index
  | .slot k => t.stack[k]? = s.stack[k]?
  | .sp => t.sp = s.sp
  | .delay => t.dt = s.dt
  | .sound => t.st = s.st
  | .random => t.rng = s.rng
  | .keyWait => t.kw = s.kw
  | .byte a => t.readByte a = s.readByte a
  | .screen => t.fb = s.fb
  | .config => t.cfg = s.cfg
  | .input => t.keypads = s.keypads ∧ t.ticks = s.ticks
  | .loaded => t.loaded = s.loaded

/-- The frame: every part outside `written` is as it was. -/
def KeepsAllBut (written : Part → Prop) (s t : State) : Prop := ∀ p, ¬ written p → p.Same s t

/-- That an instruction and a 16-bit word stand for each other, in both directions. -/
def EncodedAs (i : Instr) (w : Nat) : Prop := encode i = BitVec.ofNat 16 w ∧ decode (BitVec.ofNat 16 w) = .ok i

/-- A tick that succeeds. -/
def SafeTick (s : State) : Prop := ∃ t, step s = .next t

/-- The states some number of successful ticks lead to. -/
inductive Reaches : State → State → Prop where
  | refl (s : State) : Reaches s s
  | tick {s t u : State} : Reaches s t → step t = .next u → Reaches s u

/-- A state from which every reachable state can take a further tick: a run of any length is safe. -/
def SafeForever (s : State) : Prop := ∀ t, Reaches s t → SafeTick t

/-- The pixels a `DRW` of `n` rows at `(x0, y0)` turns over: the lit bits of R122, after the edge policy. -/
def SpriteCovers (c : Config) (bytes : Nat → Byte) (x0 y0 n px py : Nat) : Prop :=
  ∃ r, r < n ∧ ∃ col, col < 8 ∧ (bytes r).getLsbD (7 - col) = true ∧
    match c.drawEdge with
    | .clip => px = x0 + col ∧ py = y0 + r ∧ x0 + col < c.displayWidth ∧ y0 + r < c.displayHeight
    | .wrap => px = (x0 + col) % c.displayWidth ∧ py = (y0 + r) % c.displayHeight

/-- The six skip instructions of R94. -/
def isSkip : Instr → Bool
  | .seImm _ _ | .sneImm _ _ | .seReg _ _ | .sneReg _ _ | .skp _ | .sknp _ => true
  | _ => false

/-- The flag writers of R14, "and no other". -/
def writesFlag : Instr → Bool
  | .add _ _ | .sub _ _ | .subn _ _ | .shr _ _ | .shl _ _ | .drw _ _ _ => true
  | _ => false

/-- The register an instruction names as its destination `X`; of a block load, the last of its range (R61, R140). -/
def namedDestination : Instr → Option Reg
  | .ldImm x _ | .addImm x _ | .rnd x _ => some x
  | .ld x _ | .or x _ | .and x _ | .xor x _ | .add x _ | .sub x _ | .shr x _ | .subn x _ | .shl x _ => some x
  | .ldVxDt x | .ldVxMem x => some x
  | _ => none

end Sys2Proof.Machine
end

