-- ==== Sys2Proof/Certificates/Slice0/Obligations.lean ====
section
/-! DEFINITION. The statements for the provers. Values are stated as numbers wherever the spec's pseudocode does; frames through
`KeepsAllBut`, which lists the parts that may change. -/

open Sys2Proof Sys2Proof.Machine

/-! ### Encoding -/

/-- R69: "`Decode(Encode(i)) = i` for every `i`, and `Encode(Decode(w)) = w` for every legal `w`". -/
def Obligations.DecodeInvertsEncode : Prop :=
  (∀ i : Instr, decode (encode i) = .ok i) ∧ (∀ (w : Word) (i : Instr), decode w = .ok i → encode i = w)

/-- R70: the decoder is "equivalent to the table of rule R66"; R66: "at most one row matches any word". -/
def Obligations.OpcodeMapAgreesWithDecoder : Prop :=
  ∀ w : Word, decode w = decodeByMap w ∧
    opcodeMap.Pairwise (fun r q => ¬ (r.selects w = true ∧ q.selects w = true))

/-- The list of illegal words that R67 derives from R66, class by class, and nothing else; each is rejected with the raw word. -/
def Obligations.IllegalWordsAreTheListedOnes : Prop :=
  ∀ w : Word,
    ((∃ e, decode w = .error e) ↔
      (w.toNat / 4096 = 0 ∧ w.toNat % 4096 ≠ 0x0E0 ∧ w.toNat % 4096 ≠ 0x0EE) ∨
      (w.toNat / 4096 = 5 ∧ w.toNat % 16 ≠ 0) ∨
      (w.toNat / 4096 = 8 ∧ w.toNat % 16 ∈ [0x8, 0x9, 0xA, 0xB, 0xC, 0xD, 0xF]) ∨
      (w.toNat / 4096 = 9 ∧ w.toNat % 16 ≠ 0) ∨
      (w.toNat / 4096 = 0xE ∧ w.toNat % 256 ∉ [0x9E, 0xA1]) ∨
      (w.toNat / 4096 = 0xF ∧
        w.toNat % 256 ∉ [0x07, 0x0A, 0x15, 0x18, 0x1E, 0x29, 0x33, 0x55, 0x65])) ∧
    (∀ e, decode w = .error e → e = .illegalWord w)

/-- R172: a tick that fetches an illegal word fails, and carries the word `256*mem[pc] + mem[pc+1]`; only such a tick fails so. -/
def Obligations.IllegalWordFailsTheTick : Prop :=
  ∀ (s : State) (w : Word), s.kw = .running → s.pc.toNat + 1 ≤ 4095 →
    w.toNat = 256 * (s.readByte s.pc.toNat).toNat + (s.readByte (s.pc.toNat + 1)).toNat →
    ((∃ e, decode w = .error e) ↔ step s = .fault (.decodeFailure w)) ∧
    (∀ w', step s = .fault (.decodeFailure w') → w' = w)

/-- Words written out from the encodings of R66 (vectors T1 to T14 of 95_test_vectors.md). -/
def Obligations.SampleWordsDecode : Prop :=
  decode 0x00E0 = .ok .cls ∧ decode 0x1ABC = .ok (.jp 0xABC) ∧ decode 0x3A7F = .ok (.seImm 10 0x7F) ∧
  decode 0x8AB7 = .ok (.subn 10 11) ∧ decode 0xDAB5 = .ok (.drw 10 11 5) ∧ decode 0xEAA1 = .ok (.sknp 10) ∧
  decode 0xFA33 = .ok (.ldBVx 10) ∧ decode 0x0000 = .error (.illegalWord 0x0000) ∧
  decode 0x8AB8 = .error (.illegalWord 0x8AB8)

/-! ### System and control flow -/

/-- R80. -/
def Obligations.ClearScreenClearsEveryPixel : Prop :=
  EncodedAs .cls 0x00E0 ∧
  ∀ s : State, ∃ t, exec .cls s = .next t ∧ t.pc = s.pc + 2 ∧
    (∀ x y, pixel t.fb x y = false) ∧ t.fb.map List.length = s.fb.map List.length ∧
    KeepsAllBut (fun p => p = .pc ∨ p = .screen) s t

/-- R83, R176. -/
def Obligations.ReturnPopsNewestAddress : Prop :=
  EncodedAs .ret 0x00EE ∧
  ∀ s : State,
    (s.sp = 0 → exec .ret s = .fault .stackUnderflow) ∧
    (0 < s.sp → ∃ t, exec .ret s = .next t ∧ t.sp = s.sp - 1 ∧
      (∀ w, s.stack[s.sp - 1]? = some w → t.pc = w) ∧
      (4095 ≤ t.pc.toNat → t.pc.toNat ≤ 4096 → fetch t t.pc.toNat = .error (.outOfBoundsMemoryAccess 4096)) ∧
      KeepsAllBut (fun p => p = .pc ∨ p = .sp) s t)

/-- R81. -/
def Obligations.JumpGoesToAddress : Prop :=
  ∀ addr : Addr12, EncodedAs (.jp addr) (0x1000 + addr.toNat) ∧
    ∀ s : State, ∃ t, exec (.jp addr) s = .next t ∧ t.pc.toNat = addr.toNat ∧
      (addr.toNat = 0xFFF → fetch t t.pc.toNat = .error (.outOfBoundsMemoryAccess 4096)) ∧
      KeepsAllBut (fun p => p = .pc) s t

/-- R82, R175. The slot clause asks that the stack have its slots (R18). -/
def Obligations.CallPushesReturnAddress : Prop :=
  ∀ addr : Addr12, EncodedAs (.call addr) (0x2000 + addr.toNat) ∧
    ∀ s : State,
      (s.sp = s.cfg.stackCapacity → exec (.call addr) s = .fault .stackOverflow) ∧
      (s.sp < s.cfg.stackCapacity → ∃ t, exec (.call addr) s = .next t ∧
        (s.stack.length = s.cfg.stackCapacity → t.stack[s.sp]? = some (s.pc + 2)) ∧
        t.sp = s.sp + 1 ∧ t.pc.toNat = addr.toNat ∧
        KeepsAllBut (fun p => p = .pc ∨ p = .sp ∨ p = .slot s.sp) s t)

/-- R84. -/
def Obligations.OffsetJumpAddsV0 : Prop :=
  ∀ addr : Addr12, EncodedAs (.jpV0 addr) (0xB000 + addr.toNat) ∧
    ∀ s : State, ∃ t, exec (.jpV0 addr) s = .next t ∧ t.pc.toNat = addr.toNat + (s.readV 0).toNat ∧
      (4095 ≤ t.pc.toNat → fetch t t.pc.toNat = .error (.outOfBoundsMemoryAccess (max t.pc.toNat 4096))) ∧
      KeepsAllBut (fun p => p = .pc) s t

/-- A call, whatever runs before the matching return as long as it leaves the stack as the call left it, and the return: control
is back behind the call (R82, R83; the corner cases' "address of the instruction after the `CALL`"). -/
def Obligations.ReturnComesBackBehindCall : Prop :=
  ∀ (s t u : State) (addr : Addr12), s.stack.length = s.cfg.stackCapacity → exec (.call addr) s = .next t →
    u.stack = t.stack → u.sp = t.sp →
    ∃ w, exec .ret u = .next w ∧ w.pc = s.pc + 2 ∧ w.sp = s.sp ∧ ∀ k, k ≠ s.sp → w.stack[k]? = s.stack[k]?

/-! ### Skips -/

/-- R90, R91. -/
def Obligations.ImmediateSkipsCompare : Prop :=
  ∀ (x : Reg) (nn : Byte),
    EncodedAs (.seImm x nn) (0x3000 + 256 * x.val + nn.toNat) ∧
    EncodedAs (.sneImm x nn) (0x4000 + 256 * x.val + nn.toNat) ∧
    ∀ s : State,
      (∃ t, exec (.seImm x nn) s = .next t ∧
        t.pc = (if (s.readV x).toNat = nn.toNat then s.pc + 4 else s.pc + 2) ∧ KeepsAllBut (fun p => p = .pc) s t) ∧
      (∃ t, exec (.sneImm x nn) s = .next t ∧
        t.pc = (if (s.readV x).toNat = nn.toNat then s.pc + 2 else s.pc + 4) ∧ KeepsAllBut (fun p => p = .pc) s t)

/-- R92, R93. -/
def Obligations.RegisterSkipsCompare : Prop :=
  ∀ x y : Reg,
    EncodedAs (.seReg x y) (0x5000 + 256 * x.val + 16 * y.val) ∧
    EncodedAs (.sneReg x y) (0x9000 + 256 * x.val + 16 * y.val) ∧
    ∀ s : State,
      (∃ t, exec (.seReg x y) s = .next t ∧
        t.pc = (if (s.readV x).toNat = (s.readV y).toNat then s.pc + 4 else s.pc + 2) ∧
        KeepsAllBut (fun p => p = .pc) s t) ∧
      (∃ t, exec (.sneReg x y) s = .next t ∧
        t.pc = (if (s.readV x).toNat = (s.readV y).toNat then s.pc + 2 else s.pc + 4) ∧
        KeepsAllBut (fun p => p = .pc) s t)

/-- R130, R131: the key is the one the low four bits of `V[X]` name. -/
def Obligations.KeySkipsTestLowNibbleKey : Prop :=
  ∀ x : Reg,
    EncodedAs (.skp x) (0xE09E + 256 * x.val) ∧ EncodedAs (.sknp x) (0xE0A1 + 256 * x.val) ∧
    ∀ (s : State) (k : Key), k.val = (s.readV x).toNat % 16 →
      (∃ t, exec (.skp x) s = .next t ∧
        t.pc = (if s.keyDown k = true then s.pc + 4 else s.pc + 2) ∧ KeepsAllBut (fun p => p = .pc) s t) ∧
      (∃ t, exec (.sknp x) s = .next t ∧
        t.pc = (if s.keyDown k = true then s.pc + 2 else s.pc + 4) ∧ KeepsAllBut (fun p => p = .pc) s t)

/-- R94: common to all six skips. -/
def Obligations.SkipsWriteOnlyThePc : Prop :=
  ∀ (i : Instr) (s : State), isSkip i = true →
    ∃ t, exec i s = .next t ∧ (t.pc = s.pc + 2 ∨ t.pc = s.pc + 4) ∧ KeepsAllBut (fun p => p = .pc) s t ∧
      (s.pc = 4092 → t.pc = s.pc + 4 → t.pc = 4096 ∧ fetch t t.pc.toNat = .error (.outOfBoundsMemoryAccess 4096))

/-! ### Register load and ALU -/

/-- R100, R101. -/
def Obligations.ImmediateLoadAndAdd : Prop :=
  ∀ (x : Reg) (nn : Byte),
    EncodedAs (.ldImm x nn) (0x6000 + 256 * x.val + nn.toNat) ∧
    EncodedAs (.addImm x nn) (0x7000 + 256 * x.val + nn.toNat) ∧
    ∀ s : State,
      (∃ t, exec (.ldImm x nn) s = .next t ∧ t.readV x = nn ∧ t.pc = s.pc + 2 ∧
        KeepsAllBut (fun p => p = .pc ∨ p = .reg x) s t) ∧
      (∃ t, exec (.addImm x nn) s = .next t ∧
        (t.readV x).toNat = ((s.readV x).toNat + nn.toNat) % 256 ∧ t.pc = s.pc + 2 ∧
        KeepsAllBut (fun p => p = .pc ∨ p = .reg x) s t)

/-- R102 to R105: copy, and the three logic operations bit by bit; none of them touches `VF` unless `X` is 15. -/
def Obligations.CopyAndLogicWriteOnlyDestination : Prop :=
  ∀ x y : Reg,
    EncodedAs (.ld x y) (0x8000 + 256 * x.val + 16 * y.val) ∧
    EncodedAs (.or x y) (0x8001 + 256 * x.val + 16 * y.val) ∧
    EncodedAs (.and x y) (0x8002 + 256 * x.val + 16 * y.val) ∧
    EncodedAs (.xor x y) (0x8003 + 256 * x.val + 16 * y.val) ∧
    ∀ s : State,
      (∃ t, exec (.ld x y) s = .next t ∧ t.readV x = s.readV y ∧ t.pc = s.pc + 2 ∧
        KeepsAllBut (fun p => p = .pc ∨ p = .reg x) s t) ∧
      (∃ t, exec (.or x y) s = .next t ∧ t.pc = s.pc + 2 ∧
        (∀ k, (t.readV x).getLsbD k = ((s.readV x).getLsbD k || (s.readV y).getLsbD k)) ∧
        KeepsAllBut (fun p => p = .pc ∨ p = .reg x) s t) ∧
      (∃ t, exec (.and x y) s = .next t ∧ t.pc = s.pc + 2 ∧
        (∀ k, (t.readV x).getLsbD k = ((s.readV x).getLsbD k && (s.readV y).getLsbD k)) ∧
        KeepsAllBut (fun p => p = .pc ∨ p = .reg x) s t) ∧
      (∃ t, exec (.xor x y) s = .next t ∧ t.pc = s.pc + 2 ∧
        (∀ k, (t.readV x).getLsbD k = ((s.readV x).getLsbD k != (s.readV y).getLsbD k)) ∧
        KeepsAllBut (fun p => p = .pc ∨ p = .reg x) s t)

/-- R106; with `X = 15` the sum is discarded and `VF` ends as the carry. -/
def Obligations.AddSetsCarry : Prop :=
  ∀ x y : Reg, EncodedAs (.add x y) (0x8004 + 256 * x.val + 16 * y.val) ∧
    ∀ s : State, ∃ t, exec (.add x y) s = .next t ∧ t.pc = s.pc + 2 ∧
      (x ≠ 15 → (t.readV x).toNat = ((s.readV x).toNat + (s.readV y).toNat) % 256) ∧
      (t.readV 15).toNat = (if 255 < (s.readV x).toNat + (s.readV y).toNat then 1 else 0) ∧
      KeepsAllBut (fun p => p = .pc ∨ p = .reg x ∨ p = .reg 15) s t

/-- R107, R109: the flag is 1 when no borrow occurs, equality included. -/
def Obligations.SubtractionsSetNotBorrow : Prop :=
  ∀ x y : Reg,
    EncodedAs (.sub x y) (0x8005 + 256 * x.val + 16 * y.val) ∧
    EncodedAs (.subn x y) (0x8007 + 256 * x.val + 16 * y.val) ∧
    ∀ (s : State) (a b : Nat), a = (s.readV x).toNat → b = (s.readV y).toNat →
      (∃ t, exec (.sub x y) s = .next t ∧ t.pc = s.pc + 2 ∧
        (x ≠ 15 → (t.readV x).toNat = (if b ≤ a then a - b else a + 256 - b)) ∧
        (t.readV 15).toNat = (if b ≤ a then 1 else 0) ∧
        KeepsAllBut (fun p => p = .pc ∨ p = .reg x ∨ p = .reg 15) s t) ∧
      (∃ t, exec (.subn x y) s = .next t ∧ t.pc = s.pc + 2 ∧
        (x ≠ 15 → (t.readV x).toNat = (if a ≤ b then b - a else b + 256 - a)) ∧
        (t.readV 15).toNat = (if a ≤ b then 1 else 0) ∧
        KeepsAllBut (fun p => p = .pc ∨ p = .reg x ∨ p = .reg 15) s t)

/-- R108, R110: by one place, in place on `V[X]`, field `Y` without effect, the bit shifted out in `VF`. -/
def Obligations.ShiftsMoveOneBitOut : Prop :=
  ∀ x y : Reg,
    EncodedAs (.shr x y) (0x8006 + 256 * x.val + 16 * y.val) ∧
    EncodedAs (.shl x y) (0x800E + 256 * x.val + 16 * y.val) ∧
    ∀ s : State,
      (∃ t, exec (.shr x y) s = .next t ∧ t.pc = s.pc + 2 ∧
        (x ≠ 15 → (t.readV x).toNat = (s.readV x).toNat / 2) ∧
        (t.readV 15).toNat = (s.readV x).toNat % 2 ∧
        KeepsAllBut (fun p => p = .pc ∨ p = .reg x ∨ p = .reg 15) s t) ∧
      (∃ t, exec (.shl x y) s = .next t ∧ t.pc = s.pc + 2 ∧
        (x ≠ 15 → (t.readV x).toNat = 2 * (s.readV x).toNat % 256) ∧
        (t.readV 15).toNat = (s.readV x).toNat / 128 ∧
        KeepsAllBut (fun p => p = .pc ∨ p = .reg x ∨ p = .reg 15) s t)

/-- R14: the closed list of flag writers; they leave 0 or 1 in `VF`, and any other instruction changes it only by naming it as
its destination. -/
def Obligations.FlagWritersAreTheClosedList : Prop :=
  ∀ (i : Instr) (s t : State), exec i s = .next t →
    (writesFlag i = true → t.readV 15 = 0 ∨ t.readV 15 = 1) ∧
    (writesFlag i = false → t.readV 15 ≠ s.readV 15 → namedDestination i = some 15)

/-! ### Index, random number, draw -/

/-- R120, R136, R137. The glyph clause asks for a configuration that meets R5's constraints, so that the address is 16 bits. -/
def Obligations.IndexRegisterWrites : Prop :=
  (∀ addr : Addr12, EncodedAs (.ldI addr) (0xA000 + addr.toNat) ∧
    ∀ s : State, ∃ t, exec (.ldI addr) s = .next t ∧ t.index.toNat = addr.toNat ∧ t.pc = s.pc + 2 ∧
      KeepsAllBut (fun p => p = .pc ∨ p = .index) s t) ∧
  (∀ x : Reg,
    EncodedAs (.addIVx x) (0xF01E + 256 * x.val) ∧ EncodedAs (.ldFVx x) (0xF029 + 256 * x.val) ∧
    ∀ s : State,
      (∃ t, exec (.addIVx x) s = .next t ∧
        t.index.toNat = (s.index.toNat + (s.readV x).toNat) % 65536 ∧ t.pc = s.pc + 2 ∧
        KeepsAllBut (fun p => p = .pc ∨ p = .index) s t) ∧
      (∃ t, exec (.ldFVx x) s = .next t ∧ t.pc = s.pc + 2 ∧
        (s.cfg.wf = true → t.index.toNat = s.cfg.fontBase + (s.readV x).toNat % 16 * s.cfg.glyphSize) ∧
        KeepsAllBut (fun p => p = .pc ∨ p = .index) s t))

/-- R121, for all values of the constants of R25. -/
def Obligations.RandomByteUnderMask : Prop :=
  ∀ (x : Reg) (nn : Byte), EncodedAs (.rnd x nn) (0xC000 + 256 * x.val + nn.toNat) ∧
    ∀ s : State, ∃ t, exec (.rnd x nn) s = .next t ∧ t.pc = s.pc + 2 ∧
      t.rng.toNat = (s.cfg.rngMul.toNat * s.rng.toNat + s.cfg.rngInc.toNat) % 256 ∧
      (∀ k, (t.readV x).getLsbD k = (t.rng.getLsbD k && nn.getLsbD k)) ∧
      KeepsAllBut (fun p => p = .pc ∨ p = .reg x ∨ p = .random) s t

/-- R122: the failing case; else the pixels, the collision flag and the frame, under both edge policies. The pixel and flag
clauses ask for the framebuffer's size and R5's constraints, which the invariant gives. -/
def Obligations.DrawXorsTheSprite : Prop :=
  ∀ (x y : Reg) (n : Nibble), EncodedAs (.drw x y n) (0xD000 + 256 * x.val + 16 * y.val + n.toNat) ∧
    ∀ (s : State) (x0 y0 : Nat),
      x0 = (s.readV x).toNat % s.cfg.displayWidth → y0 = (s.readV y).toNat % s.cfg.displayHeight →
      (0 < n.toNat → 4095 < s.index.toNat + n.toNat - 1 →
        exec (.drw x y n) s = .fault (.outOfBoundsMemoryAccess (max s.index.toNat 4096))) ∧
      (n.toNat = 0 ∨ s.index.toNat + n.toNat - 1 ≤ 4095 →
        ∃ t, exec (.drw x y n) s = .next t ∧ t.pc = s.pc + 2 ∧
          t.fb.map List.length = s.fb.map List.length ∧
          KeepsAllBut (fun p => p = .pc ∨ p = .screen ∨ p = .reg 15) s t ∧
          (s.Inv →
            (∀ px py, px < s.cfg.displayWidth → py < s.cfg.displayHeight →
              (SpriteCovers s.cfg (fun r => s.readByte (s.index.toNat + r)) x0 y0 n.toNat px py →
                pixel t.fb px py = !pixel s.fb px py) ∧
              (¬ SpriteCovers s.cfg (fun r => s.readByte (s.index.toNat + r)) x0 y0 n.toNat px py →
                pixel t.fb px py = pixel s.fb px py)) ∧
            ((∃ px py, SpriteCovers s.cfg (fun r => s.readByte (s.index.toNat + r)) x0 y0 n.toNat px py ∧
                pixel s.fb px py = true) → t.readV 15 = 1) ∧
            ((¬ ∃ px py, SpriteCovers s.cfg (fun r => s.readByte (s.index.toNat + r)) x0 y0 n.toNat px py ∧
                pixel s.fb px py = true) → t.readV 15 = 0)))

/-- R123 (a): the second of two identical draws (same bytes, same start coordinates, same policy, whatever registers name them)
puts every pixel back. -/
def Obligations.DrawTwiceRestoresTheScreen : Prop :=
  ∀ (s t u : State) (x y x' y' : Reg) (n : Nibble), exec (.drw x y n) s = .next t →
    u.cfg = s.cfg → u.fb = t.fb → u.index = s.index →
    (∀ r, r < n.toNat → u.readByte (s.index.toNat + r) = s.readByte (s.index.toNat + r)) →
    (u.readV x').toNat % s.cfg.displayWidth = (s.readV x).toNat % s.cfg.displayWidth →
    (u.readV y').toNat % s.cfg.displayHeight = (s.readV y).toNat % s.cfg.displayHeight →
    ∃ w, exec (.drw x' y' n) u = .next w ∧ w.fb = s.fb

/-- R123 (b), (c): a draw onto clear pixels reports 0; the second of two identical draws onto pixels that were clear before the
first reports 1 if and only if the sprite has a lit bit that is not clipped. -/
def Obligations.CollisionOfRepeatedDraw : Prop :=
  ∀ (s t u : State) (x y x' y' : Reg) (n : Nibble), s.Inv → exec (.drw x y n) s = .next t →
    (∀ px py, SpriteCovers s.cfg (fun r => s.readByte (s.index.toNat + r))
        ((s.readV x).toNat % s.cfg.displayWidth) ((s.readV y).toNat % s.cfg.displayHeight) n.toNat px py →
      pixel s.fb px py = false) →
    t.readV 15 = 0 ∧
    (u.cfg = s.cfg → u.fb = t.fb → u.index = s.index →
      (∀ r, r < n.toNat → u.readByte (s.index.toNat + r) = s.readByte (s.index.toNat + r)) →
      (u.readV x').toNat % s.cfg.displayWidth = (s.readV x).toNat % s.cfg.displayWidth →
      (u.readV y').toNat % s.cfg.displayHeight = (s.readV y).toNat % s.cfg.displayHeight →
      ∃ w, exec (.drw x' y' n) u = .next w ∧
        (w.readV 15 = 1 ↔ ∃ px py, SpriteCovers s.cfg (fun r => s.readByte (s.index.toNat + r))
          ((s.readV x).toNat % s.cfg.displayWidth) ((s.readV y).toNat % s.cfg.displayHeight) n.toNat px py))

/-! ### Timers, key wait, memory transfers -/

/-- R132, R134, R135. -/
def Obligations.TimerInstructions : Prop :=
  ∀ x : Reg,
    EncodedAs (.ldVxDt x) (0xF007 + 256 * x.val) ∧ EncodedAs (.ldDtVx x) (0xF015 + 256 * x.val) ∧
    EncodedAs (.ldStVx x) (0xF018 + 256 * x.val) ∧
    ∀ s : State,
      (∃ t, exec (.ldVxDt x) s = .next t ∧ t.readV x = s.dt ∧ t.pc = s.pc + 2 ∧
        KeepsAllBut (fun p => p = .pc ∨ p = .reg x) s t) ∧
      (∃ t, exec (.ldDtVx x) s = .next t ∧ t.dt = s.readV x ∧ t.pc = s.pc + 2 ∧
        KeepsAllBut (fun p => p = .pc ∨ p = .delay) s t) ∧
      (∃ t, exec (.ldStVx x) s = .next t ∧ t.st = s.readV x ∧ t.pc = s.pc + 2 ∧
        KeepsAllBut (fun p => p = .pc ∨ p = .sound) s t)

/-- The corner cases of R132, R134 and R135, which the spec derives from R154 and R157: what stands when the tick returns. -/
def Obligations.TimerInstructionTicks : Prop :=
  ∀ (s : State) (x : Reg), s.kw = .running →
    (s.fetchDecode = .ok (.ldVxDt x) → ∃ u, step s = .next u ∧ u.readV x = s.dt ∧ u.dt.toNat = s.dt.toNat - 1) ∧
    (s.fetchDecode = .ok (.ldDtVx x) → ∃ u, step s = .next u ∧ u.dt.toNat = (s.readV x).toNat - 1) ∧
    (s.fetchDecode = .ok (.ldStVx x) → ∃ u, step s = .next u ∧ u.st.toNat = (s.readV x).toNat - 1 ∧
      (u.beep = true ↔ 2 ≤ (s.readV x).toNat))

/-- R133: the instruction only enters the wait. -/
def Obligations.KeyWaitInstructionOnlyEntersTheWait : Prop :=
  ∀ x : Reg, EncodedAs (.ldVxK x) (0xF00A + 256 * x.val) ∧
    ∀ s : State, ∃ t, exec (.ldVxK x) s = .next t ∧ t.kw = .awaitingKey x ∧
      KeepsAllBut (fun p => p = .keyWait) s t

/-- R138. -/
def Obligations.DecimalStoreWritesThreeDigits : Prop :=
  ∀ x : Reg, EncodedAs (.ldBVx x) (0xF033 + 256 * x.val) ∧
    ∀ s : State,
      (4095 < s.index.toNat + 2 →
        exec (.ldBVx x) s = .fault (.outOfBoundsMemoryAccess (max s.index.toNat 4096))) ∧
      (s.index.toNat + 2 ≤ 4095 → ∃ t, exec (.ldBVx x) s = .next t ∧ t.pc = s.pc + 2 ∧
        (t.readByte s.index.toNat).toNat = (s.readV x).toNat / 100 ∧
        (t.readByte (s.index.toNat + 1)).toNat = (s.readV x).toNat / 10 % 10 ∧
        (t.readByte (s.index.toNat + 2)).toNat = (s.readV x).toNat % 10 ∧
        KeepsAllBut (fun p => p = .pc ∨ ∃ a, p = .byte a ∧ s.index.toNat ≤ a ∧ a < s.index.toNat + 3) s t)

/-- R139, under both settings of `INDEX_AUTOINCREMENT`. -/
def Obligations.BlockStoreWritesRegisterRange : Prop :=
  ∀ x : Reg, EncodedAs (.ldMemVx x) (0xF055 + 256 * x.val) ∧
    ∀ s : State,
      (4095 < s.index.toNat + x.val →
        exec (.ldMemVx x) s = .fault (.outOfBoundsMemoryAccess (max s.index.toNat 4096))) ∧
      (s.index.toNat + x.val ≤ 4095 → ∃ t, exec (.ldMemVx x) s = .next t ∧ t.pc = s.pc + 2 ∧
        (∀ r : Reg, r ≤ x → t.readByte (s.index.toNat + r.val) = s.readV r) ∧
        t.index.toNat = s.index.toNat + (if s.cfg.indexAutoincrement = true then x.val + 1 else 0) ∧
        KeepsAllBut (fun p => p = .pc ∨ p = .index ∨
          ∃ a, p = .byte a ∧ s.index.toNat ≤ a ∧ a < s.index.toNat + (x.val + 1)) s t)

/-- R140, under both settings of `INDEX_AUTOINCREMENT`. -/
def Obligations.BlockLoadWritesRegisterRange : Prop :=
  ∀ x : Reg, EncodedAs (.ldVxMem x) (0xF065 + 256 * x.val) ∧
    ∀ s : State,
      (4095 < s.index.toNat + x.val →
        exec (.ldVxMem x) s = .fault (.outOfBoundsMemoryAccess (max s.index.toNat 4096))) ∧
      (s.index.toNat + x.val ≤ 4095 → ∃ t, exec (.ldVxMem x) s = .next t ∧ t.pc = s.pc + 2 ∧
        (∀ r : Reg, r ≤ x → t.readV r = s.readByte (s.index.toNat + r.val)) ∧
        t.index.toNat = s.index.toNat + (if s.cfg.indexAutoincrement = true then x.val + 1 else 0) ∧
        KeepsAllBut (fun p => p = .pc ∨ p = .index ∨ ∃ r, p = .reg r ∧ r ≤ x) s t)

/-- R52: a store is seen by the very next fetch; R47: the bytes at `a` and `a + 1` are the word `256*b0 + b1`. -/
def Obligations.StoredBytesAreFetched : Prop :=
  ∀ (s : State) (x : Reg), 1 ≤ x.val → s.index.toNat + x.val ≤ 4095 →
    ∃ t, exec (.ldMemVx x) s = .next t ∧
      ∃ w, fetch t s.index.toNat = .ok w ∧ w.toNat = 256 * (s.readV 0).toNat + (s.readV 1).toNat

/-! ### Memory and fetch -/

/-- R43, R44: an access in range reads or writes the one byte it names; out of range it raises with its address. -/
def Obligations.MemoryAccessRules : Prop :=
  ∀ (s : State) (a : Nat) (b : Byte),
    (4095 < a → memRead s a = .error (.outOfBoundsMemoryAccess a) ∧
      memWrite s a b = .error (.outOfBoundsMemoryAccess a)) ∧
    (a ≤ 4095 → memRead s a = .ok (s.readByte a) ∧
      ∃ t, memWrite s a b = .ok t ∧ memRead t a = .ok b ∧ KeepsAllBut (fun p => p = .byte a) s t)

/-- R45. -/
def Obligations.FetchIsBigEndianAndBounded : Prop :=
  ∀ (s : State) (a : Nat),
    (a + 1 ≤ 4095 → ∃ w, fetch s a = .ok w ∧
      w.toNat = 256 * (s.readByte a).toNat + (s.readByte (a + 1)).toNat) ∧
    (4096 ≤ a → fetch s a = .error (.outOfBoundsMemoryAccess a)) ∧
    (a = 4095 → fetch s a = .error (.outOfBoundsMemoryAccess 4096))

/-- R46: the failure names the lowest out-of-range address of the range. -/
def Obligations.CheckRangeNamesLowestAddress : Prop :=
  ∀ a n : Nat,
    (n = 0 ∨ a + n - 1 ≤ 4095 → checkRange a n = .ok ()) ∧
    (n ≠ 0 → 4095 < a + n - 1 → checkRange a n = .error (.outOfBoundsMemoryAccess (max a 4096)) ∧
      a ≤ max a 4096 ∧ max a 4096 < a + n ∧ ∀ b, a ≤ b → b < max a 4096 → b ≤ 4095)

/-- R173: which address each failing access reports; the fetch rows end the tick. -/
def Obligations.OutOfBoundsReportsByAccess : Prop :=
  ∀ (s : State) (x y : Reg) (n : Nibble),
    (s.kw = .running → 4096 ≤ s.pc.toNat → step s = .fault (.outOfBoundsMemoryAccess s.pc.toNat)) ∧
    (s.kw = .running → s.pc.toNat = 4095 → step s = .fault (.outOfBoundsMemoryAccess 4096)) ∧
    (1 ≤ n.toNat → 4095 < s.index.toNat + n.toNat - 1 →
      exec (.drw x y n) s = .fault (.outOfBoundsMemoryAccess (max s.index.toNat 4096))) ∧
    (4095 < s.index.toNat + 2 →
      exec (.ldBVx x) s = .fault (.outOfBoundsMemoryAccess (max s.index.toNat 4096))) ∧
    (4095 < s.index.toNat + x.val →
      exec (.ldMemVx x) s = .fault (.outOfBoundsMemoryAccess (max s.index.toNat 4096)) ∧
      exec (.ldVxMem x) s = .fault (.outOfBoundsMemoryAccess (max s.index.toNat 4096)))

/-! ### The tick -/

/-- R154: the bytes at `pc` decode to `i`: the tick is `exec i`, then the timer step and the end of its input (log 2). -/
def Obligations.StepRunsTheDecodedInstruction : Prop :=
  ∀ (s : State) (i : Instr), s.kw = .running → s.pc.toNat + 1 ≤ 4095 →
    decode (BitVec.ofNat 16 (256 * (s.readByte s.pc.toNat).toNat + (s.readByte (s.pc.toNat + 1)).toNat)) = .ok i →
    (∀ t, exec i s = .next t → ∃ u, step s = .next u ∧ u.dt.toNat = t.dt.toNat - 1 ∧ u.st.toNat = t.st.toNat - 1 ∧
      KeepsAllBut (fun p => p = .delay ∨ p = .sound ∨ p = .input) t u) ∧
    (∀ f, exec i s = .fault f → step s = .fault f) ∧
    (∀ r, exec i s = .refused r → step s = .refused r)

/-- R155: both confirmation policies. -/
def Obligations.AwaitingTickResolvesOrWaits : Prop :=
  ∀ (s : State) (r : Reg), s.kw = .awaitingKey r →
    ((∀ k, s.keyDown k = false) → ∃ t, step s = .next t ∧
      KeepsAllBut (fun p => p = .delay ∨ p = .sound ∨ p = .input) s t) ∧
    (∀ k, s.keyDown k = true → (∀ j, j < k → s.keyDown j = false) → ∃ t, step s = .next t ∧
      (s.cfg.keyConfirm = .anyDown →
        (t.readV r).toNat = k.val ∧ t.pc = s.pc + 2 ∧ t.kw = .running ∧
        KeepsAllBut (fun p => p = .reg r ∨ p = .pc ∨ p = .keyWait ∨ p = .delay ∨ p = .sound ∨ p = .input) s t) ∧
      (s.cfg.keyConfirm = .pressThenRelease → t.kw = .captured r k ∧
        KeepsAllBut (fun p => p = .keyWait ∨ p = .delay ∨ p = .sound ∨ p = .input) s t))

/-- R156: only key `k` is watched. -/
def Obligations.CapturedTickCommitsOnRelease : Prop :=
  ∀ (s : State) (r : Reg) (k : Key), s.kw = .captured r k →
    (s.keyDown k = true → ∃ t, step s = .next t ∧
      KeepsAllBut (fun p => p = .delay ∨ p = .sound ∨ p = .input) s t) ∧
    (s.keyDown k = false → ∃ t, step s = .next t ∧
      (t.readV r).toNat = k.val ∧ t.pc = s.pc + 2 ∧ t.kw = .running ∧
      KeepsAllBut (fun p => p = .reg r ∨ p = .pc ∨ p = .keyWait ∨ p = .delay ∨ p = .sound ∨ p = .input) s t)

/-- R157: in every successful tick, whichever arm ran, each timer counts down once, from the value the same tick's `LD DT, Vx`
or `LD ST, Vx` wrote if that is what ran. -/
def Obligations.TimersCountDownOncePerTick : Prop :=
  ∀ s t : State, step s = .next t →
    ((∀ x, ¬ (s.kw = .running ∧ s.fetchDecode = .ok (.ldDtVx x))) → t.dt.toNat = s.dt.toNat - 1) ∧
    (∀ x, s.kw = .running → s.fetchDecode = .ok (.ldDtVx x) → t.dt.toNat = (s.readV x).toNat - 1) ∧
    ((∀ x, ¬ (s.kw = .running ∧ s.fetchDecode = .ok (.ldStVx x))) → t.st.toNat = s.st.toNat - 1) ∧
    (∀ x, s.kw = .running → s.fetchDecode = .ok (.ldStVx x) → t.st.toNat = (s.readV x).toNat - 1)

/-- The "written by" column of R10, read as complete (C8): a successful instruction changes a piece of state only if the column
names it; the model's own configuration and input are changed by none. -/
def Obligations.StateIsWrittenOnlyByItsWriters : Prop :=
  ∀ (i : Instr) (s t : State), exec i s = .next t →
    (t.index ≠ s.index → (∃ a, i = .ldI a) ∨ ∃ x, i = .addIVx x ∨ i = .ldFVx x ∨ i = .ldMemVx x ∨ i = .ldVxMem x) ∧
    (t.stack ≠ s.stack → ∃ a, i = .call a) ∧
    (t.sp ≠ s.sp → i = .ret ∨ ∃ a, i = .call a) ∧
    (t.dt ≠ s.dt → ∃ x, i = .ldDtVx x) ∧
    (t.st ≠ s.st → ∃ x, i = .ldStVx x) ∧
    (t.rng ≠ s.rng → ∃ x nn, i = .rnd x nn) ∧
    (t.kw ≠ s.kw → ∃ x, i = .ldVxK x) ∧
    (t.mem ≠ s.mem → ∃ x, i = .ldBVx x ∨ i = .ldMemVx x) ∧
    (t.fb ≠ s.fb → i = .cls ∨ ∃ x y n, i = .drw x y n) ∧
    (t.v ≠ s.v → (∃ x, namedDestination i = some x) ∨ ∃ x y n, i = .drw x y n) ∧
    (t.pc = s.pc + 2 ∨ isSkip i = true ∨ i = .ret ∨ (∃ a, i = .jp a ∨ i = .call a ∨ i = .jpV0 a) ∨
      ∃ x, i = .ldVxK x ∧ t.pc = s.pc) ∧
    t.cfg = s.cfg ∧ t.keypads = s.keypads ∧ t.ticks = s.ticks ∧ t.loaded = s.loaded

/-- A successful tick changes neither the configuration nor the model's load mark, and uses up exactly one keypad snapshot (the
model's own fields: log 1, log 2, log 9). -/
def Obligations.TickConsumesOneSnapshot : Prop :=
  ∀ s t : State, step s = .next t →
    t.cfg = s.cfg ∧ t.loaded = s.loaded ∧ t.keypads = s.keypads.tail ∧ t.ticks = s.ticks + 1

/-- R170, R175, R176, R177: an instruction fails exactly in the taxonomy's cases, and none is refused. -/
def Obligations.InstructionsFailOnlyByTheTaxonomy : Prop :=
  ∀ (i : Instr) (s : State), s.sp ≤ s.cfg.stackCapacity →
    (∀ f, exec i s = .fault f ↔
      ((∃ a, i = .call a) ∧ s.sp = s.cfg.stackCapacity ∧ f = .stackOverflow) ∨
      (i = .ret ∧ s.sp = 0 ∧ f = .stackUnderflow) ∨
      ((∃ x y n, i = .drw x y n ∧ 1 ≤ n.toNat ∧ 4095 < s.index.toNat + n.toNat - 1) ∧
        f = .outOfBoundsMemoryAccess (max s.index.toNat 4096)) ∨
      ((∃ x, i = .ldBVx x ∧ 4095 < s.index.toNat + 2) ∧ f = .outOfBoundsMemoryAccess (max s.index.toNat 4096)) ∨
      ((∃ x, (i = .ldMemVx x ∨ i = .ldVxMem x) ∧ 4095 < s.index.toNat + x.val) ∧
        f = .outOfBoundsMemoryAccess (max s.index.toNat 4096))) ∧
    (∀ r, exec i s ≠ .refused r) ∧ (∀ r, step s ≠ .refused r)

/-- R171: a failing tick changes nothing, timers included, whatever fails in it. -/
def Obligations.FailedTickLeavesNoTrace : Prop :=
  ∀ (s : State) (k : Keypad) (f : Fault), (tick s k).1 = .failure f → (tick s k).2 = s

/-- R159's derived sentence: after a failure the next tick "fails in the same way whatever its keypad snapshot is". -/
def Obligations.FailedTickRepeats : Prop :=
  ∀ (s t : State) (k : Keypad) (f : Fault), tick s k = (.failure f, t) → ∀ k' : Keypad, tick t k' = (.failure f, t)

/-! ### What is visible to whom -/

/-- R23: the framebuffer is written by `DRW` and `CLS` only, and a program learns of a pixel only through the collision flag of
`DRW`. -/
def Obligations.ScreenIsSeenOnlyThroughCollision : Prop :=
  (∀ s t : State, step s = .next t → t.fb ≠ s.fb →
    s.kw = .running ∧ (s.fetchDecode = .ok .cls ∨ ∃ x y n, s.fetchDecode = .ok (.drw x y n))) ∧
  (∀ (i : Instr) (s t : State) (other : Framebuffer), exec i s = .next t →
    ∃ t', exec i (s.setFb other) = .next t' ∧
      KeepsAllBut (fun p => p = .screen ∨ (p = .reg 15 ∧ ∃ x y n, i = .drw x y n)) t t')

/-- R20, R26: `ST` is read by no instruction: two machines that differ in it alone tick alike. -/
def Obligations.SoundTimerIsReadByNoInstruction : Prop :=
  ∀ (s : State) (b : Byte),
    (∀ t, step s = .next t → ∃ t', step (s.setSt b) = .next t' ∧ KeepsAllBut (fun p => p = .sound) t t') ∧
    (∀ f, step s = .fault f → step (s.setSt b) = .fault f)

/-- R151: the keypad is read by `SKP`, `SKNP` and the key-wait rules and by nothing else; a byte entry is down when non-zero. -/
def Obligations.KeypadIsReadOnlyByKeyRules : Prop :=
  (∀ (s : State) (pads : List Keypad) (n : Nat), s.kw = .running →
    (∀ x, s.fetchDecode ≠ .ok (.skp x) ∧ s.fetchDecode ≠ .ok (.sknp x)) →
    (∀ t, step s = .next t → ∃ t', step { s with keypads := pads, ticks := n } = .next t' ∧
      KeepsAllBut (fun p => p = .input) t t') ∧
    (∀ f, step s = .fault f → step { s with keypads := pads, ticks := n } = .fault f)) ∧
  (∀ (s : State) (bytes : Vector Byte 16) (k : Key),
    (s.supply (keypadOfBytes bytes)).keyDown k = true ↔ bytes[k.val].toNat ≠ 0)

/-- R152, R153, R22: the accessors. -/
def Obligations.HostOutputsShowScreenAndBeep : Prop :=
  ∀ s : State, (s.beep = true ↔ s.st.toNat ≠ 0) ∧
    (s.Inv → s.framebufferBits.length = s.cfg.displayWidth * s.cfg.displayHeight ∧
      ∀ x y, x < s.cfg.displayWidth → y < s.cfg.displayHeight →
        s.framebufferBits[y * s.cfg.displayWidth + x]? = some (pixel s.fb x y))

/-! ### Reset, load, runs -/

/-- R190, for every configuration that meets R5's constraints. -/
def Obligations.ResetValues : Prop :=
  ∀ c : Config, c.wf = true → ∀ s : State, s = State.resetWith c →
    (∀ r, s.readV r = 0) ∧ s.pc.toNat = c.programOrigin ∧ s.index = 0 ∧ s.sp = 0 ∧
    (∀ k, k < c.stackCapacity → s.stack[k]? = some 0) ∧ s.dt = 0 ∧ s.st = 0 ∧ s.rng = c.rngSeed ∧
    s.kw = .running ∧ (∀ j b, c.fontTable[j]? = some b → s.readByte (c.fontBase + j) = b) ∧
    (∀ a, a < c.fontBase ∨ c.fontBase + 16 * c.glyphSize ≤ a → s.readByte a = 0) ∧
    (∀ x y, pixel s.fb x y = false) ∧ s.beep = false

/-- The machine right after reset meets the invariant, in the hardware's configuration (whatever its OPEN parameters are) and in
every configuration that meets R5's constraints (R28). -/
def Obligations.ResetMeetsTheInvariant : Prop :=
  State.reset.Inv ∧ ∀ c : Config, c.wf = true → (State.resetWith c).Inv

/-- R28: every successful tick, from every state that meets the invariant, keeps it; and the host's `Tick` keeps it whether it
succeeds or not. -/
def Obligations.EveryTickKeepsTheInvariant : Prop :=
  (∀ s t : State, s.Inv → step s = .next t → t.Inv) ∧
  (∀ (s : State) (k : Keypad), s.Inv → (tick s k).2.Inv)

/-- R192, R174: an image too long leaves the machine as it was; else it is copied verbatim and nothing else of R10 changes. -/
def Obligations.LoadCopiesTheImage : Prop :=
  ∀ (s : State) (image : List Byte), s.cfg.wf = true → s.loaded = false → s.ticks = 0 →
    (Config.memSize - s.cfg.programOrigin < image.length → load s image = .fault .programTooLarge) ∧
    (image.length ≤ Config.memSize - s.cfg.programOrigin → ∃ t, load s image = .next t ∧
      (∀ j b, image[j]? = some b → t.readByte (s.cfg.programOrigin + j) = b) ∧
      KeepsAllBut (fun p => p = .loaded ∨
        ∃ a, p = .byte a ∧ s.cfg.programOrigin ≤ a ∧ a < s.cfg.programOrigin + image.length) s t)

/-- R193: with no program loaded the first tick after reset fails on the word 0x0000. -/
def Obligations.FirstTickWithoutProgramFails : Prop :=
  step State.reset = .fault (.decodeFailure 0x0000)

/-- R192, R193: after Reset and Load, "the program's first instruction is the word at `PROGRAM_ORIGIN`". -/
def Obligations.BootedProgramStartsAtOrigin : Prop :=
  ∀ (b0 b1 : Byte) (rest : List Byte), rest.length ≤ 3582 →
    ∃ t, boot Config.machine (b0 :: b1 :: rest) = .next t ∧ t.pc = 0x200 ∧ t.kw = .running ∧
      ∃ w, fetch t t.pc.toNat = .ok w ∧ w.toNat = 256 * b0.toNat + b1.toNat

/-- R81, R159: a jump to its own address repeats for ever: every tick succeeds, and nothing but the timers (and the input used
up) ever changes. -/
def Obligations.SelfJumpRunsForever : Prop :=
  ∀ (s : State) (addr : Addr12), s.kw = .running → s.pc.toNat = addr.toNat → s.fetchDecode = .ok (.jp addr) →
    SafeForever s ∧
    ∀ t, Reaches s t → KeepsAllBut (fun p => p = .delay ∨ p = .sound ∨ p = .input) s t
end

