-- ==== Sys2Proof/Laws/Config.lean ====
section
/-! SUPPORT. What the constraints of R5 say, as numbers; the hardware's configuration meets them, whatever its OPEN parameters. -/

namespace Sys2Proof

theorem Config.wf_iff (c : Config) : c.wf = true ↔
    16 ≤ c.stackCapacity ∧ c.fontBase + 16 * c.glyphSize ≤ c.programOrigin ∧ c.programOrigin ≤ 4096 ∧
      c.fontTable.length = 16 * c.glyphSize ∧ 8 ≤ c.displayWidth ∧ 15 ≤ c.displayHeight := by
  simp only [Config.wf, Config.stackBigEnough, Config.fontBelowOrigin, Config.originInMemory, Config.fontComplete,
    Config.wideEnough, Config.highEnough, Bool.and_eq_true, decide_eq_true_eq, and_assoc]
  exact Iff.rfl

theorem Config.machine_wf : Config.machine.wf = true := by
  rw [Config.wf_iff]
  simp [Config.machine]

end Sys2Proof
end

