-- ==== Sys2Proof/Laws/Display.lean ====
section
/-! SUPPORT. The framebuffer: what one flip does to each pixel, that flips commute and undo themselves, that nothing changes its
size, and what a run of flips over distinct pixels leaves (R22, R122). -/

namespace Sys2Proof.Machine

/-- A pixel's place exists in the framebuffer. -/
def InScreen (fb : Framebuffer) (x y : Nat) : Prop := ∃ row, fb[y]? = some row ∧ x < row.length

/-! ### One flip -/

theorem flipPixel_getElem? (fb : Framebuffer) (x y q : Nat) :
    (flipPixel fb x y)[q]? = (fb[q]?).map (fun row => if y = q then row.modify x not else row) := by
  rw [flipPixel, List.getElem?_modify]
  cases fb[q]? <;> simp

/-- What a flip does to each pixel. -/
theorem pixel_flipPixel (fb : Framebuffer) {x y : Nat} (px py : Nat) (h : InScreen fb x y) :
    pixel (flipPixel fb x y) px py = if px = x ∧ py = y then !pixel fb px py else pixel fb px py := by
  obtain ⟨row, hrow, hx⟩ := h
  simp only [pixel, List.getD_eq_getElem?_getD, flipPixel_getElem?]
  by_cases hy : py = y
  · subst hy
    simp only [hrow, Option.map_some, if_true, Option.getD_some, and_true, List.getElem?_modify]
    by_cases hpx : px = x
    · subst hpx; simp [hx]
    · simp [hpx, Ne.symm hpx]
  · simp only [hy, and_false, if_false, Ne.symm hy]
    cases fb[py]? <;> simp

/-- A flip changes no row's length and no number of rows. -/
theorem flipPixel_size (fb : Framebuffer) (x y : Nat) : (flipPixel fb x y).map List.length = fb.map List.length := by
  apply List.ext_getElem?
  intro q
  simp only [List.getElem?_map, flipPixel_getElem?, Option.map_map]
  cases fb[q]? <;> simp
  split <;> simp

theorem flipPixel_flipPixel (fb : Framebuffer) (x y : Nat) : flipPixel (flipPixel fb x y) x y = fb := by
  apply List.ext_getElem?
  intro q
  simp only [flipPixel_getElem?, Option.map_map]
  cases fb[q]? with
  | none => rfl
  | some row =>
    simp only [Option.map_some, Function.comp_apply, Option.some.injEq]
    split
    · apply List.ext_getElem?
      intro k
      simp only [List.getElem?_modify]
      cases row[k]? <;> simp
      split <;> simp
    · rfl

theorem flipPixel_comm (fb : Framebuffer) (x y x' y' : Nat) :
    flipPixel (flipPixel fb x y) x' y' = flipPixel (flipPixel fb x' y') x y := by
  apply List.ext_getElem?
  intro q
  simp only [flipPixel_getElem?, Option.map_map]
  cases fb[q]? with
  | none => rfl
  | some row =>
    simp only [Option.map_some, Function.comp_apply, Option.some.injEq]
    by_cases h1 : y = q <;> by_cases h2 : y' = q <;> simp only [h1, h2, if_true, if_false]
    apply List.ext_getElem?
    intro k
    simp only [List.getElem?_modify]
    cases row[k]? <;> simp
    split <;> split <;> simp

/-! ### A run of flips -/

/-- All the pixels of a list flipped in turn. -/
def flipAll (fb : Framebuffer) (ts : List (Nat × Nat)) : Framebuffer := ts.foldl (fun f p => flipPixel f p.1 p.2) fb

theorem foldl_drawPixel_fst (ts : List (Nat × Nat)) (fb : Framebuffer) (b : Bool) :
    (ts.foldl drawPixel (fb, b)).1 = flipAll fb ts := by
  induction ts generalizing fb b with
  | nil => rfl
  | cons p ts ih => exact ih _ _

theorem flipAll_flipPixel (ts : List (Nat × Nat)) (fb : Framebuffer) (x y : Nat) :
    flipAll (flipPixel fb x y) ts = flipPixel (flipAll fb ts) x y := by
  induction ts generalizing fb with
  | nil => rfl
  | cons p ts ih => simp only [flipAll, List.foldl_cons] at ih ⊢; rw [flipPixel_comm, ih]

/-- The same flips twice put every pixel back. -/
theorem flipAll_flipAll (ts : List (Nat × Nat)) (fb : Framebuffer) : flipAll (flipAll fb ts) ts = fb := by
  induction ts generalizing fb with
  | nil => rfl
  | cons p ts ih =>
    have h : flipAll fb (p :: ts) = flipPixel (flipAll fb ts) p.1 p.2 := flipAll_flipPixel ts fb p.1 p.2
    have h' : ∀ f, flipAll f (p :: ts) = flipAll (flipPixel f p.1 p.2) ts := fun _ => rfl
    rw [h, h', flipPixel_flipPixel, ih]

theorem flipAll_size (ts : List (Nat × Nat)) (fb : Framebuffer) : (flipAll fb ts).map List.length = fb.map List.length := by
  induction ts generalizing fb with
  | nil => rfl
  | cons p ts ih =>
    show (flipAll (flipPixel fb p.1 p.2) ts).map List.length = _
    rw [ih, flipPixel_size]

theorem InScreen.of_size {fb fb' : Framebuffer} {x y : Nat} (h : InScreen fb x y)
    (hs : fb'.map List.length = fb.map List.length) : InScreen fb' x y := by
  obtain ⟨row, hrow, hx⟩ := h
  have := congrArg (fun l => l[y]?) hs
  simp only [List.getElem?_map, hrow, Option.map_some] at this
  obtain ⟨row', hr', hl⟩ := Option.map_eq_some_iff.mp this
  exact ⟨row', hr', by omega⟩

/-- What flips over distinct pixels of the screen leave in each pixel. -/
theorem pixel_flipAll {ts : List (Nat × Nat)} (fb : Framebuffer) (px py : Nat) (hn : ts.Nodup)
    (hs : ∀ p ∈ ts, InScreen fb p.1 p.2) :
    pixel (flipAll fb ts) px py = if (px, py) ∈ ts then !pixel fb px py else pixel fb px py := by
  induction ts generalizing fb with
  | nil => simp [flipAll]
  | cons p ts ih =>
    obtain ⟨hp, hn⟩ := List.nodup_cons.mp hn
    have hs' : ∀ q ∈ ts, InScreen (flipPixel fb p.1 p.2) q.1 q.2 :=
      fun q hq => (hs q (List.mem_cons_of_mem _ hq)).of_size (flipPixel_size _ _ _)
    show pixel (flipAll (flipPixel fb p.1 p.2) ts) px py = _
    rw [ih _ hn hs', pixel_flipPixel fb px py (hs p List.mem_cons_self)]
    by_cases h1 : (px, py) = p
    · subst h1; simp [hp]
    · have : ¬ (px = p.1 ∧ py = p.2) := fun h => h1 (Prod.ext h.1 h.2)
      simp [List.mem_cons, h1, this]

/-- The collision of flips over distinct pixels of the screen: a lit pixel was among them. -/
theorem foldl_drawPixel_snd {ts : List (Nat × Nat)} (fb : Framebuffer) (b : Bool) (hn : ts.Nodup)
    (hs : ∀ p ∈ ts, InScreen fb p.1 p.2) :
    (ts.foldl drawPixel (fb, b)).2 = true ↔ b = true ∨ ∃ p ∈ ts, pixel fb p.1 p.2 = true := by
  induction ts generalizing fb b with
  | nil => simp
  | cons p ts ih =>
    obtain ⟨hp, hn⟩ := List.nodup_cons.mp hn
    have hs' : ∀ q ∈ ts, InScreen (flipPixel fb p.1 p.2) q.1 q.2 :=
      fun q hq => (hs q (List.mem_cons_of_mem _ hq)).of_size (flipPixel_size _ _ _)
    have hpix : ∀ q ∈ ts, pixel (flipPixel fb p.1 p.2) q.1 q.2 = pixel fb q.1 q.2 := by
      intro q hq
      rw [pixel_flipPixel fb _ _ (hs p List.mem_cons_self), if_neg]
      rintro ⟨h1, h2⟩
      exact hp (by rwa [show q = p from Prod.ext h1 h2] at hq)
    rw [List.foldl_cons]
    show (ts.foldl drawPixel (flipPixel fb p.1 p.2, b || pixel fb p.1 p.2)).2 = true ↔ _
    rw [ih _ _ hn hs', Bool.or_eq_true, or_assoc]
    apply or_congr Iff.rfl
    constructor
    · rintro (h | ⟨q, hq, h⟩)
      · exact ⟨p, List.mem_cons_self, h⟩
      · exact ⟨q, List.mem_cons_of_mem _ hq, by rwa [← hpix q hq]⟩
    · rintro ⟨q, hq, h⟩
      rcases List.mem_cons.mp hq with rfl | hq
      · exact .inl h
      · exact .inr ⟨q, hq, by rwa [hpix q hq]⟩

/-! ### The pixels of a sprite -/

theorem mem_rowTargets {c : Config} {x0 py : Nat} {row : Byte} {p : Nat × Nat} :
    p ∈ rowTargets c x0 py row ↔ ∃ col, col < 8 ∧ row.getLsbD (7 - col) = true ∧ placePixel c (x0 + col) py = some p := by
  simp only [rowTargets, List.mem_filterMap, List.mem_range]
  constructor
  · rintro ⟨col, hc, h⟩
    split at h
    · exact ⟨col, hc, ‹_›, h⟩
    · cases h
  · rintro ⟨col, hc, hb, h⟩
    exact ⟨col, hc, by rw [if_pos hb, h]⟩

theorem mem_spriteTargets {c : Config} {x0 y0 : Nat} {rows : List Byte} {p : Nat × Nat} :
    p ∈ spriteTargets c x0 y0 rows ↔
      ∃ r b, rows[r]? = some b ∧ ∃ col, col < 8 ∧ b.getLsbD (7 - col) = true ∧
        placePixel c (x0 + col) (y0 + r) = some p := by
  induction rows generalizing y0 with
  | nil => simp [spriteTargets]
  | cons row rows ih =>
    simp only [spriteTargets, List.mem_append, mem_rowTargets, ih]
    constructor
    · rintro (⟨col, hc, hb, h⟩ | ⟨r, b, hr, col, hc, hb, h⟩)
      · exact ⟨0, row, rfl, col, hc, hb, h⟩
      · exact ⟨r + 1, b, hr, col, hc, hb, by rwa [show y0 + (r + 1) = y0 + 1 + r by omega]⟩
    · rintro ⟨r, b, hr, col, hc, hb, h⟩
      cases r with
      | zero => cases hr; exact .inl ⟨col, hc, hb, h⟩
      | succ r => exact .inr ⟨r, b, hr, col, hc, hb, by rwa [show y0 + 1 + r = y0 + (r + 1) by omega]⟩

/-- Where a sprite pixel lands, policy by policy (R122). -/
theorem placePixel_eq_some {c : Config} {px py : Nat} {p : Nat × Nat} :
    placePixel c px py = some p ↔
      match c.drawEdge with
      | .clip => p.1 = px ∧ p.2 = py ∧ px < c.displayWidth ∧ py < c.displayHeight
      | .wrap => p.1 = px % c.displayWidth ∧ p.2 = py % c.displayHeight := by
  obtain ⟨p1, p2⟩ := p
  unfold placePixel
  cases c.drawEdge <;> simp only
  · split
    · simp only [reduceCtorEq, false_iff]; omega
    · simp only [Option.some.injEq, Prod.mk.injEq]; omega
  · simp only [Option.some.injEq, Prod.mk.injEq]; omega

/-- On a screen that meets R5's constraints, a sprite pixel that is drawn lies on the screen. -/
theorem placePixel_lt {c : Config} {px py : Nat} {p : Nat × Nat} (hW : 0 < c.displayWidth) (hH : 0 < c.displayHeight)
    (h : placePixel c px py = some p) : p.1 < c.displayWidth ∧ p.2 < c.displayHeight := by
  rw [placePixel_eq_some] at h
  cases hd : c.drawEdge <;> simp only [hd] at h
  · omega
  · rw [h.1, h.2]; exact ⟨Nat.mod_lt _ hW, Nat.mod_lt _ hH⟩

theorem mod_inj_of_close {w a i j : Nat} (hi : i < w) (hj : j < w) (h : (a + i) % w = (a + j) % w) : i = j := by
  have h' : i % w = j % w := Nat.ModEq.add_left_cancel' a h
  rwa [Nat.mod_eq_of_lt hi, Nat.mod_eq_of_lt hj] at h'

/-- "no two sprite bits land on one pixel" (R122): two bits that land on the same pixel are the same bit. -/
theorem placePixel_inj {c : Config} {x0 y0 i j r q : Nat} {p : Nat × Nat} (hi : i < c.displayWidth) (hj : j < c.displayWidth)
    (hr : r < c.displayHeight) (hq : q < c.displayHeight) (h1 : placePixel c (x0 + i) (y0 + r) = some p)
    (h2 : placePixel c (x0 + j) (y0 + q) = some p) : i = j ∧ r = q := by
  rw [placePixel_eq_some] at h1 h2
  cases hd : c.drawEdge <;> simp only [hd] at h1 h2
  · omega
  · exact ⟨mod_inj_of_close hi hj (h1.1.symm.trans h2.1), mod_inj_of_close hr hq (h1.2.symm.trans h2.2)⟩

theorem rowTargets_nodup {c : Config} {x0 py : Nat} (row : Byte) (hW : 8 ≤ c.displayWidth) (hH : 0 < c.displayHeight) :
    (rowTargets c x0 py row).Nodup := by
  refine List.pairwise_filterMap.mpr ?_
  refine List.Pairwise.imp_of_mem ?_ List.pairwise_lt_range
  intro i j hi hj hij p hp q hq hpq
  subst hpq
  rw [List.mem_range] at hi hj
  split at hp
  · split at hq
    · have := (placePixel_inj (x0 := x0) (y0 := py) (r := 0) (q := 0) (by omega) (by omega) hH hH hp hq).1
      omega
    · cases hq
  · cases hp

/-- The pixels a sprite turns over are distinct, on a screen that meets R5's constraints (R122). -/
theorem spriteTargets_nodup {c : Config} {x0 y0 : Nat} {rows : List Byte} (hW : 8 ≤ c.displayWidth)
    (hH : rows.length ≤ c.displayHeight) : (spriteTargets c x0 y0 rows).Nodup := by
  induction rows generalizing y0 with
  | nil => exact List.nodup_nil
  | cons row rows ih =>
    simp only [List.length_cons] at hH
    refine List.nodup_append.mpr ⟨rowTargets_nodup row hW (by omega), ih (by omega), ?_⟩
    intro p hp q hq hpq
    subst hpq
    obtain ⟨i, hi, -, h1⟩ := mem_rowTargets.mp hp
    obtain ⟨r, b, hr, j, hj, -, h2⟩ := mem_spriteTargets.mp hq
    have hlt : r < rows.length := (List.getElem?_eq_some_iff.mp hr).1
    rw [show y0 + 1 + r = y0 + (r + 1) by omega] at h2
    have := (placePixel_inj (r := 0) (by omega) (by omega) (by omega) (by omega) h1 h2).2
    omega

/-- The pixels turned over are those `SpriteCovers` names. -/
theorem mem_spriteTargets_iff_covers {c : Config} {bytes : Nat → Byte} {x0 y0 n px py : Nat} {rows : List Byte}
    (hl : rows.length = n) (hb : ∀ r (h : r < rows.length), rows[r] = bytes r) :
    (px, py) ∈ spriteTargets c x0 y0 rows ↔ SpriteCovers c bytes x0 y0 n px py := by
  rw [mem_spriteTargets]
  constructor
  · rintro ⟨r, b, hr, col, hc, hbit, h⟩
    obtain ⟨hlt, rfl⟩ := List.getElem?_eq_some_iff.mp hr
    rw [hb r hlt] at hbit
    refine ⟨r, hl ▸ hlt, col, hc, hbit, ?_⟩
    rw [placePixel_eq_some] at h
    cases hd : c.drawEdge <;> simp only [hd] at h ⊢ <;> exact h
  · rintro ⟨r, hr, col, hc, hbit, h⟩
    have hlt : r < rows.length := hl ▸ hr
    refine ⟨r, rows[r], List.getElem?_eq_getElem hlt, col, hc, by rwa [hb r hlt], ?_⟩
    rw [placePixel_eq_some]
    cases hd : c.drawEdge <;> simp only [hd] at h ⊢ <;> exact h

/-- A screen of `h` rows of `w` pixels has every pixel below those bounds. -/
theorem inScreen_of_size {fb : Framebuffer} {w h x y : Nat} (hh : fb.length = h) (hw : ∀ row ∈ fb, row.length = w)
    (hx : x < w) (hy : y < h) : InScreen fb x y := by
  have hy' : y < fb.length := hh ▸ hy
  exact ⟨fb[y], List.getElem?_eq_getElem hy', by rw [hw _ (List.getElem_mem hy')]; exact hx⟩

/-- The sprite loop as one run of flips. -/
theorem drawSprite_fst (c : Config) (fb : Framebuffer) (x0 y0 : Nat) (rows : List Byte) :
    (drawSprite c fb x0 y0 rows).1 = flipAll fb (spriteTargets c x0 y0 rows) := foldl_drawPixel_fst _ _ _

end Sys2Proof.Machine
end

