-- ==== Sys2Proof/Laws/Encoding.lean ====
section
/-! SUPPORT. Words as numbers: the concatenations of the formats (R62) and the fields of a word (R61), so that encoding facts become
arithmetic. -/

namespace Sys2Proof

theorem append_toNat {m n : Nat} (a : BitVec m) (b : BitVec n) : (a ++ b).toNat = a.toNat * 2 ^ n + b.toNat := by
  rw [BitVec.toNat_append, ← Nat.shiftLeft_add_eq_or_of_lt b.isLt, Nat.shiftLeft_eq]

@[simp] theorem bitsOfReg_toNat (r : Reg) : (bitsOfReg r).toNat = r.val := by
  simp only [bitsOfReg, BitVec.toNat_ofNat]
  exact Nat.mod_eq_of_lt r.isLt

@[simp] theorem regOfBits_val (b : Nibble) : (regOfBits b).val = b.toNat := rfl

theorem encodeAddr_toNat (op : Nibble) (a : Addr12) : (encodeAddr op a).toNat = op.toNat * 4096 + a.toNat :=
  append_toNat op a

theorem encodeXNN_toNat (op : Nibble) (x : Reg) (nn : Byte) :
    (encodeXNN op x nn).toNat = op.toNat * 4096 + x.val * 256 + nn.toNat := by
  have h1 : (encodeXNN op x nn).toNat = op.toNat * 2 ^ 12 + (bitsOfReg x ++ nn).toNat := append_toNat _ _
  rw [h1, append_toNat, bitsOfReg_toNat]
  omega

theorem encodeXYN_toNat (op : Nibble) (x y : Reg) (n : Nibble) :
    (encodeXYN op x y n).toNat = op.toNat * 4096 + x.val * 256 + y.val * 16 + n.toNat := by
  have h1 : (encodeXYN op x y n).toNat = op.toNat * 2 ^ 12 + (bitsOfReg x ++ (bitsOfReg y ++ n)).toNat :=
    append_toNat _ _
  have h2 : (bitsOfReg x ++ (bitsOfReg y ++ n)).toNat = (bitsOfReg x).toNat * 2 ^ 8 + (bitsOfReg y ++ n).toNat :=
    append_toNat _ _
  rw [h1, h2, append_toNat, bitsOfReg_toNat, bitsOfReg_toNat]
  omega

/-! ### Fields -/

theorem slice_toNat (w : Word) (lo len : Nat) : (w.extractLsb' lo len).toNat = w.toNat / 2 ^ lo % 2 ^ len := by
  rw [BitVec.extractLsb'_toNat, Nat.shiftRight_eq_div_pow]

theorem fieldOp_toNat (w : Word) : (fieldOp w).toNat = w.toNat / 4096 := by
  have := w.isLt
  rw [fieldOp, slice_toNat]
  omega

theorem fieldX_val (w : Word) : (fieldX w).val = w.toNat / 256 % 16 := slice_toNat w 8 4

theorem fieldY_val (w : Word) : (fieldY w).val = w.toNat / 16 % 16 := slice_toNat w 4 4

theorem fieldN_toNat (w : Word) : (fieldN w).toNat = w.toNat % 16 := by
  rw [fieldN, slice_toNat]; omega

theorem fieldNN_toNat (w : Word) : (fieldNN w).toNat = w.toNat % 256 := by
  rw [fieldNN, slice_toNat]; omega

theorem fieldNNN_toNat (w : Word) : (fieldNNN w).toNat = w.toNat % 4096 := by
  rw [fieldNNN, slice_toNat]; omega

/-- The fields of a word of format ADDR. -/
theorem fields_encodeAddr (op : Nibble) (a : Addr12) :
    fieldOp (encodeAddr op a) = op ∧ fieldNNN (encodeAddr op a) = a := by
  have := a.isLt
  have := op.isLt
  constructor <;> apply BitVec.eq_of_toNat_eq
  · rw [fieldOp_toNat, encodeAddr_toNat]; omega
  · rw [fieldNNN_toNat, encodeAddr_toNat]; omega

/-- The fields of a word of format XNN or XSUB. -/
theorem fields_encodeXNN (op : Nibble) (x : Reg) (nn : Byte) :
    fieldOp (encodeXNN op x nn) = op ∧ fieldX (encodeXNN op x nn) = x ∧ fieldNN (encodeXNN op x nn) = nn := by
  have := nn.isLt
  have := op.isLt
  have := x.isLt
  refine ⟨BitVec.eq_of_toNat_eq ?_, Fin.ext ?_, BitVec.eq_of_toNat_eq ?_⟩
  · rw [fieldOp_toNat, encodeXNN_toNat]; omega
  · rw [fieldX_val, encodeXNN_toNat]; omega
  · rw [fieldNN_toNat, encodeXNN_toNat]; omega

/-- The fields of a word of format XY or XYN. -/
theorem fields_encodeXYN (op : Nibble) (x y : Reg) (n : Nibble) :
    fieldOp (encodeXYN op x y n) = op ∧ fieldX (encodeXYN op x y n) = x ∧ fieldY (encodeXYN op x y n) = y ∧
      fieldN (encodeXYN op x y n) = n := by
  have := n.isLt
  have := op.isLt
  have := x.isLt
  have := y.isLt
  refine ⟨BitVec.eq_of_toNat_eq ?_, Fin.ext ?_, Fin.ext ?_, BitVec.eq_of_toNat_eq ?_⟩
  · rw [fieldOp_toNat, encodeXYN_toNat]; omega
  · rw [fieldX_val, encodeXYN_toNat]; omega
  · rw [fieldY_val, encodeXYN_toNat]; omega
  · rw [fieldN_toNat, encodeXYN_toNat]; omega

/-- A word is the concatenation of its fields, in each format. -/
theorem encodeAddr_fields (w : Word) : encodeAddr (fieldOp w) (fieldNNN w) = w := by
  apply BitVec.eq_of_toNat_eq
  rw [encodeAddr_toNat, fieldOp_toNat, fieldNNN_toNat]; omega

theorem encodeXNN_fields (w : Word) : encodeXNN (fieldOp w) (fieldX w) (fieldNN w) = w := by
  apply BitVec.eq_of_toNat_eq
  rw [encodeXNN_toNat, fieldOp_toNat, fieldX_val, fieldNN_toNat]; omega

theorem encodeXYN_fields (w : Word) : encodeXYN (fieldOp w) (fieldX w) (fieldY w) (fieldN w) = w := by
  apply BitVec.eq_of_toNat_eq
  rw [encodeXYN_toNat, fieldOp_toNat, fieldX_val, fieldY_val, fieldN_toNat]; omega

/-! ### Masks of the opcode map (R66) -/

theorem append_and_append {m n : Nat} (a c : BitVec m) (b d : BitVec n) :
    (a ++ b) &&& (c ++ d) = (a &&& c) ++ (b &&& d) := by
  ext i hi
  simp only [BitVec.getElem_and, BitVec.getElem_append]
  split <;> simp

theorem and_F000 (w : Word) : w &&& 0xF000 = encodeAddr (fieldOp w) 0 := by
  have h : (fieldOp w ++ fieldNNN w) &&& (0xF#4 ++ 0#12) = fieldOp w ++ 0#12 := by
    rw [append_and_append]
    congr 1
    · exact BitVec.and_allOnes
    · exact BitVec.and_zero
  conv_lhs => rw [← encodeAddr_fields w]
  exact h

theorem and_F00F (w : Word) : w &&& 0xF00F = encodeXYN (fieldOp w) 0 0 (fieldN w) := by
  have h : (fieldOp w ++ (bitsOfReg (fieldX w) ++ (bitsOfReg (fieldY w) ++ fieldN w))) &&&
      (0xF#4 ++ (0#4 ++ (0#4 ++ 0xF#4))) =
      fieldOp w ++ (0#4 ++ (0#4 ++ fieldN w)) := by
    rw [append_and_append, append_and_append, append_and_append]
    congr 1
    · exact BitVec.and_allOnes
    · congr 1
      · exact BitVec.and_zero
      · congr 1
        · exact BitVec.and_zero
        · exact BitVec.and_allOnes
  conv_lhs => rw [← encodeXYN_fields w]
  exact h

theorem and_F0FF (w : Word) : w &&& 0xF0FF = encodeXNN (fieldOp w) 0 (fieldNN w) := by
  have h : (fieldOp w ++ (bitsOfReg (fieldX w) ++ fieldNN w)) &&& (0xF#4 ++ (0#4 ++ 0xFF#8)) =
      fieldOp w ++ (0#4 ++ fieldNN w) := by
    rw [append_and_append, append_and_append]
    congr 1
    · exact BitVec.and_allOnes
    · congr 1
      · exact BitVec.and_zero
      · exact BitVec.and_allOnes
  conv_lhs => rw [← encodeXNN_fields w]
  exact h

theorem encodeAddr_zero_inj (op op' : Nibble) : encodeAddr op 0 = encodeAddr op' 0 ↔ op = op' := by
  constructor
  · intro h
    rw [← (fields_encodeAddr op 0).1, h, (fields_encodeAddr op' 0).1]
  · rintro rfl; rfl

/-- A row of format ADDR or XNN is selected by its top nibble. -/
theorem selects_of_mask_F000 (r : OpcodeRow) (op : Nibble) (hm : r.mask = 0xF000) (hp : r.pattern = encodeAddr op 0) (w : Word) :
    r.selects w = decide (fieldOp w = op) := by
  unfold OpcodeRow.selects
  rw [hm, hp, and_F000]; simp only [encodeAddr_zero_inj]

/-- A row of format XY is selected by its top and low nibbles. -/
theorem selects_of_mask_F00F (r : OpcodeRow) (op n : Nibble) (hm : r.mask = 0xF00F) (hp : r.pattern = encodeXYN op 0 0 n) (w : Word) :
    r.selects w = decide (fieldOp w = op ∧ fieldN w = n) := by
  have : encodeXYN (fieldOp w) 0 0 (fieldN w) = encodeXYN op 0 0 n ↔ (fieldOp w = op ∧ fieldN w = n) := by
    constructor
    · intro h
      have a := fields_encodeXYN (fieldOp w) 0 0 (fieldN w)
      have b := fields_encodeXYN op 0 0 n
      rw [h] at a
      exact ⟨a.1.symm.trans b.1, a.2.2.2.symm.trans b.2.2.2⟩
    · rintro ⟨rfl, rfl⟩; rfl
  unfold OpcodeRow.selects
  rw [hm, hp, and_F00F]; simp only [this]

/-- A row of format XSUB is selected by its top nibble and low byte. -/
theorem selects_of_mask_F0FF (r : OpcodeRow) (op : Nibble) (n : Byte) (hm : r.mask = 0xF0FF) (hp : r.pattern = encodeXNN op 0 n) (w : Word) :
    r.selects w = decide (fieldOp w = op ∧ fieldNN w = n) := by
  have : encodeXNN (fieldOp w) 0 (fieldNN w) = encodeXNN op 0 n ↔ (fieldOp w = op ∧ fieldNN w = n) := by
    constructor
    · intro h
      have a := fields_encodeXNN (fieldOp w) 0 (fieldNN w)
      have b := fields_encodeXNN op 0 n
      rw [h] at a
      exact ⟨a.1.symm.trans b.1, a.2.2.symm.trans b.2.2⟩
    · rintro ⟨rfl, rfl⟩; rfl
  unfold OpcodeRow.selects
  rw [hm, hp, and_F0FF]; simp only [this]

end Sys2Proof
end

