-- ==== Sys2Proof/Laws/State.lean ====
section
/-! SUPPORT. One lemma per field per update of State, each true by rfl, and what the readers `readV`, `readByte` and `keyDown` see
after an update that does not concern them. -/

namespace Sys2Proof.Machine

/-! ### `writeV` -/

@[simp] theorem State.writeV_cfg (s : State) (r : Reg) (b : Byte) : (s.writeV r b).cfg = s.cfg := rfl
@[simp] theorem State.writeV_v (s : State) (r : Reg) (b : Byte) : (s.writeV r b).v = s.v.set r.val b := rfl
@[simp] theorem State.writeV_pc (s : State) (r : Reg) (b : Byte) : (s.writeV r b).pc = s.pc := rfl
@[simp] theorem State.writeV_index (s : State) (r : Reg) (b : Byte) : (s.writeV r b).index = s.index := rfl
@[simp] theorem State.writeV_stack (s : State) (r : Reg) (b : Byte) : (s.writeV r b).stack = s.stack := rfl
@[simp] theorem State.writeV_sp (s : State) (r : Reg) (b : Byte) : (s.writeV r b).sp = s.sp := rfl
@[simp] theorem State.writeV_dt (s : State) (r : Reg) (b : Byte) : (s.writeV r b).dt = s.dt := rfl
@[simp] theorem State.writeV_st (s : State) (r : Reg) (b : Byte) : (s.writeV r b).st = s.st := rfl
@[simp] theorem State.writeV_rng (s : State) (r : Reg) (b : Byte) : (s.writeV r b).rng = s.rng := rfl
@[simp] theorem State.writeV_kw (s : State) (r : Reg) (b : Byte) : (s.writeV r b).kw = s.kw := rfl
@[simp] theorem State.writeV_mem (s : State) (r : Reg) (b : Byte) : (s.writeV r b).mem = s.mem := rfl
@[simp] theorem State.writeV_fb (s : State) (r : Reg) (b : Byte) : (s.writeV r b).fb = s.fb := rfl
@[simp] theorem State.writeV_keypads (s : State) (r : Reg) (b : Byte) : (s.writeV r b).keypads = s.keypads := rfl
@[simp] theorem State.writeV_ticks (s : State) (r : Reg) (b : Byte) : (s.writeV r b).ticks = s.ticks := rfl
@[simp] theorem State.writeV_loaded (s : State) (r : Reg) (b : Byte) : (s.writeV r b).loaded = s.loaded := rfl
@[simp] theorem State.writeV_readByte (s : State) (r : Reg) (b : Byte) (q : Nat) : (s.writeV r b).readByte q = s.readByte q := rfl
@[simp] theorem State.writeV_keyDown (s : State) (r : Reg) (b : Byte) (q : Key) : (s.writeV r b).keyDown q = s.keyDown q := rfl

/-! ### `writeWithFlag` -/

@[simp] theorem State.writeWithFlag_cfg (s : State) (x : Reg) (r f : Byte) : (s.writeWithFlag x r f).cfg = s.cfg := rfl
@[simp] theorem State.writeWithFlag_pc (s : State) (x : Reg) (r f : Byte) : (s.writeWithFlag x r f).pc = s.pc := rfl
@[simp] theorem State.writeWithFlag_index (s : State) (x : Reg) (r f : Byte) : (s.writeWithFlag x r f).index = s.index := rfl
@[simp] theorem State.writeWithFlag_stack (s : State) (x : Reg) (r f : Byte) : (s.writeWithFlag x r f).stack = s.stack := rfl
@[simp] theorem State.writeWithFlag_sp (s : State) (x : Reg) (r f : Byte) : (s.writeWithFlag x r f).sp = s.sp := rfl
@[simp] theorem State.writeWithFlag_dt (s : State) (x : Reg) (r f : Byte) : (s.writeWithFlag x r f).dt = s.dt := rfl
@[simp] theorem State.writeWithFlag_st (s : State) (x : Reg) (r f : Byte) : (s.writeWithFlag x r f).st = s.st := rfl
@[simp] theorem State.writeWithFlag_rng (s : State) (x : Reg) (r f : Byte) : (s.writeWithFlag x r f).rng = s.rng := rfl
@[simp] theorem State.writeWithFlag_kw (s : State) (x : Reg) (r f : Byte) : (s.writeWithFlag x r f).kw = s.kw := rfl
@[simp] theorem State.writeWithFlag_mem (s : State) (x : Reg) (r f : Byte) : (s.writeWithFlag x r f).mem = s.mem := rfl
@[simp] theorem State.writeWithFlag_fb (s : State) (x : Reg) (r f : Byte) : (s.writeWithFlag x r f).fb = s.fb := rfl
@[simp] theorem State.writeWithFlag_keypads (s : State) (x : Reg) (r f : Byte) : (s.writeWithFlag x r f).keypads = s.keypads := rfl
@[simp] theorem State.writeWithFlag_ticks (s : State) (x : Reg) (r f : Byte) : (s.writeWithFlag x r f).ticks = s.ticks := rfl
@[simp] theorem State.writeWithFlag_loaded (s : State) (x : Reg) (r f : Byte) : (s.writeWithFlag x r f).loaded = s.loaded := rfl
@[simp] theorem State.writeWithFlag_readByte (s : State) (x : Reg) (r f : Byte) (q : Nat) : (s.writeWithFlag x r f).readByte q = s.readByte q := rfl

/-! ### `loadRegs` -/

@[simp] theorem State.loadRegs_cfg (s : State) (bs : List Byte) : (s.loadRegs bs).cfg = s.cfg := rfl
@[simp] theorem State.loadRegs_v (s : State) (bs : List Byte) : (s.loadRegs bs).v = setRegsFrom s.v 0 bs := rfl
@[simp] theorem State.loadRegs_pc (s : State) (bs : List Byte) : (s.loadRegs bs).pc = s.pc := rfl
@[simp] theorem State.loadRegs_index (s : State) (bs : List Byte) : (s.loadRegs bs).index = s.index := rfl
@[simp] theorem State.loadRegs_stack (s : State) (bs : List Byte) : (s.loadRegs bs).stack = s.stack := rfl
@[simp] theorem State.loadRegs_sp (s : State) (bs : List Byte) : (s.loadRegs bs).sp = s.sp := rfl
@[simp] theorem State.loadRegs_dt (s : State) (bs : List Byte) : (s.loadRegs bs).dt = s.dt := rfl
@[simp] theorem State.loadRegs_st (s : State) (bs : List Byte) : (s.loadRegs bs).st = s.st := rfl
@[simp] theorem State.loadRegs_rng (s : State) (bs : List Byte) : (s.loadRegs bs).rng = s.rng := rfl
@[simp] theorem State.loadRegs_kw (s : State) (bs : List Byte) : (s.loadRegs bs).kw = s.kw := rfl
@[simp] theorem State.loadRegs_mem (s : State) (bs : List Byte) : (s.loadRegs bs).mem = s.mem := rfl
@[simp] theorem State.loadRegs_fb (s : State) (bs : List Byte) : (s.loadRegs bs).fb = s.fb := rfl
@[simp] theorem State.loadRegs_keypads (s : State) (bs : List Byte) : (s.loadRegs bs).keypads = s.keypads := rfl
@[simp] theorem State.loadRegs_ticks (s : State) (bs : List Byte) : (s.loadRegs bs).ticks = s.ticks := rfl
@[simp] theorem State.loadRegs_loaded (s : State) (bs : List Byte) : (s.loadRegs bs).loaded = s.loaded := rfl
@[simp] theorem State.loadRegs_readByte (s : State) (bs : List Byte) (q : Nat) : (s.loadRegs bs).readByte q = s.readByte q := rfl
@[simp] theorem State.loadRegs_keyDown (s : State) (bs : List Byte) (q : Key) : (s.loadRegs bs).keyDown q = s.keyDown q := rfl

/-! ### `setPc` -/

@[simp] theorem State.setPc_cfg (s : State) (t : Word) : (s.setPc t).cfg = s.cfg := rfl
@[simp] theorem State.setPc_v (s : State) (t : Word) : (s.setPc t).v = s.v := rfl
@[simp] theorem State.setPc_pc (s : State) (t : Word) : (s.setPc t).pc = t := rfl
@[simp] theorem State.setPc_index (s : State) (t : Word) : (s.setPc t).index = s.index := rfl
@[simp] theorem State.setPc_stack (s : State) (t : Word) : (s.setPc t).stack = s.stack := rfl
@[simp] theorem State.setPc_sp (s : State) (t : Word) : (s.setPc t).sp = s.sp := rfl
@[simp] theorem State.setPc_dt (s : State) (t : Word) : (s.setPc t).dt = s.dt := rfl
@[simp] theorem State.setPc_st (s : State) (t : Word) : (s.setPc t).st = s.st := rfl
@[simp] theorem State.setPc_rng (s : State) (t : Word) : (s.setPc t).rng = s.rng := rfl
@[simp] theorem State.setPc_kw (s : State) (t : Word) : (s.setPc t).kw = s.kw := rfl
@[simp] theorem State.setPc_mem (s : State) (t : Word) : (s.setPc t).mem = s.mem := rfl
@[simp] theorem State.setPc_fb (s : State) (t : Word) : (s.setPc t).fb = s.fb := rfl
@[simp] theorem State.setPc_keypads (s : State) (t : Word) : (s.setPc t).keypads = s.keypads := rfl
@[simp] theorem State.setPc_ticks (s : State) (t : Word) : (s.setPc t).ticks = s.ticks := rfl
@[simp] theorem State.setPc_loaded (s : State) (t : Word) : (s.setPc t).loaded = s.loaded := rfl
@[simp] theorem State.setPc_readV (s : State) (t : Word) (q : Reg) : (s.setPc t).readV q = s.readV q := rfl
@[simp] theorem State.setPc_readByte (s : State) (t : Word) (q : Nat) : (s.setPc t).readByte q = s.readByte q := rfl
@[simp] theorem State.setPc_keyDown (s : State) (t : Word) (q : Key) : (s.setPc t).keyDown q = s.keyDown q := rfl

/-! ### `advance` -/

@[simp] theorem State.advance_cfg (s : State) : (s.advance).cfg = s.cfg := rfl
@[simp] theorem State.advance_v (s : State) : (s.advance).v = s.v := rfl
@[simp] theorem State.advance_pc (s : State) : (s.advance).pc = s.pc + 2 := rfl
@[simp] theorem State.advance_index (s : State) : (s.advance).index = s.index := rfl
@[simp] theorem State.advance_stack (s : State) : (s.advance).stack = s.stack := rfl
@[simp] theorem State.advance_sp (s : State) : (s.advance).sp = s.sp := rfl
@[simp] theorem State.advance_dt (s : State) : (s.advance).dt = s.dt := rfl
@[simp] theorem State.advance_st (s : State) : (s.advance).st = s.st := rfl
@[simp] theorem State.advance_rng (s : State) : (s.advance).rng = s.rng := rfl
@[simp] theorem State.advance_kw (s : State) : (s.advance).kw = s.kw := rfl
@[simp] theorem State.advance_mem (s : State) : (s.advance).mem = s.mem := rfl
@[simp] theorem State.advance_fb (s : State) : (s.advance).fb = s.fb := rfl
@[simp] theorem State.advance_keypads (s : State) : (s.advance).keypads = s.keypads := rfl
@[simp] theorem State.advance_ticks (s : State) : (s.advance).ticks = s.ticks := rfl
@[simp] theorem State.advance_loaded (s : State) : (s.advance).loaded = s.loaded := rfl
@[simp] theorem State.advance_readV (s : State) (q : Reg) : (s.advance).readV q = s.readV q := rfl
@[simp] theorem State.advance_readByte (s : State) (q : Nat) : (s.advance).readByte q = s.readByte q := rfl
@[simp] theorem State.advance_keyDown (s : State) (q : Key) : (s.advance).keyDown q = s.keyDown q := rfl

/-! ### `skipIf` -/

@[simp] theorem State.skipIf_cfg (s : State) (m : Bool) : (s.skipIf m).cfg = s.cfg := rfl
@[simp] theorem State.skipIf_v (s : State) (m : Bool) : (s.skipIf m).v = s.v := rfl
@[simp] theorem State.skipIf_pc (s : State) (m : Bool) : (s.skipIf m).pc = if m then s.pc + 4 else s.pc + 2 := rfl
@[simp] theorem State.skipIf_index (s : State) (m : Bool) : (s.skipIf m).index = s.index := rfl
@[simp] theorem State.skipIf_stack (s : State) (m : Bool) : (s.skipIf m).stack = s.stack := rfl
@[simp] theorem State.skipIf_sp (s : State) (m : Bool) : (s.skipIf m).sp = s.sp := rfl
@[simp] theorem State.skipIf_dt (s : State) (m : Bool) : (s.skipIf m).dt = s.dt := rfl
@[simp] theorem State.skipIf_st (s : State) (m : Bool) : (s.skipIf m).st = s.st := rfl
@[simp] theorem State.skipIf_rng (s : State) (m : Bool) : (s.skipIf m).rng = s.rng := rfl
@[simp] theorem State.skipIf_kw (s : State) (m : Bool) : (s.skipIf m).kw = s.kw := rfl
@[simp] theorem State.skipIf_mem (s : State) (m : Bool) : (s.skipIf m).mem = s.mem := rfl
@[simp] theorem State.skipIf_fb (s : State) (m : Bool) : (s.skipIf m).fb = s.fb := rfl
@[simp] theorem State.skipIf_keypads (s : State) (m : Bool) : (s.skipIf m).keypads = s.keypads := rfl
@[simp] theorem State.skipIf_ticks (s : State) (m : Bool) : (s.skipIf m).ticks = s.ticks := rfl
@[simp] theorem State.skipIf_loaded (s : State) (m : Bool) : (s.skipIf m).loaded = s.loaded := rfl
@[simp] theorem State.skipIf_readV (s : State) (m : Bool) (q : Reg) : (s.skipIf m).readV q = s.readV q := rfl
@[simp] theorem State.skipIf_readByte (s : State) (m : Bool) (q : Nat) : (s.skipIf m).readByte q = s.readByte q := rfl
@[simp] theorem State.skipIf_keyDown (s : State) (m : Bool) (q : Key) : (s.skipIf m).keyDown q = s.keyDown q := rfl

/-! ### `setIndex` -/

@[simp] theorem State.setIndex_cfg (s : State) (i : Word) : (s.setIndex i).cfg = s.cfg := rfl
@[simp] theorem State.setIndex_v (s : State) (i : Word) : (s.setIndex i).v = s.v := rfl
@[simp] theorem State.setIndex_pc (s : State) (i : Word) : (s.setIndex i).pc = s.pc := rfl
@[simp] theorem State.setIndex_index (s : State) (i : Word) : (s.setIndex i).index = i := rfl
@[simp] theorem State.setIndex_stack (s : State) (i : Word) : (s.setIndex i).stack = s.stack := rfl
@[simp] theorem State.setIndex_sp (s : State) (i : Word) : (s.setIndex i).sp = s.sp := rfl
@[simp] theorem State.setIndex_dt (s : State) (i : Word) : (s.setIndex i).dt = s.dt := rfl
@[simp] theorem State.setIndex_st (s : State) (i : Word) : (s.setIndex i).st = s.st := rfl
@[simp] theorem State.setIndex_rng (s : State) (i : Word) : (s.setIndex i).rng = s.rng := rfl
@[simp] theorem State.setIndex_kw (s : State) (i : Word) : (s.setIndex i).kw = s.kw := rfl
@[simp] theorem State.setIndex_mem (s : State) (i : Word) : (s.setIndex i).mem = s.mem := rfl
@[simp] theorem State.setIndex_fb (s : State) (i : Word) : (s.setIndex i).fb = s.fb := rfl
@[simp] theorem State.setIndex_keypads (s : State) (i : Word) : (s.setIndex i).keypads = s.keypads := rfl
@[simp] theorem State.setIndex_ticks (s : State) (i : Word) : (s.setIndex i).ticks = s.ticks := rfl
@[simp] theorem State.setIndex_loaded (s : State) (i : Word) : (s.setIndex i).loaded = s.loaded := rfl
@[simp] theorem State.setIndex_readV (s : State) (i : Word) (q : Reg) : (s.setIndex i).readV q = s.readV q := rfl
@[simp] theorem State.setIndex_readByte (s : State) (i : Word) (q : Nat) : (s.setIndex i).readByte q = s.readByte q := rfl
@[simp] theorem State.setIndex_keyDown (s : State) (i : Word) (q : Key) : (s.setIndex i).keyDown q = s.keyDown q := rfl

/-! ### `push` -/

@[simp] theorem State.push_cfg (s : State) (w : Word) : (s.push w).cfg = s.cfg := rfl
@[simp] theorem State.push_v (s : State) (w : Word) : (s.push w).v = s.v := rfl
@[simp] theorem State.push_pc (s : State) (w : Word) : (s.push w).pc = s.pc := rfl
@[simp] theorem State.push_index (s : State) (w : Word) : (s.push w).index = s.index := rfl
@[simp] theorem State.push_stack (s : State) (w : Word) : (s.push w).stack = s.stack.set s.sp w := rfl
@[simp] theorem State.push_sp (s : State) (w : Word) : (s.push w).sp = s.sp + 1 := rfl
@[simp] theorem State.push_dt (s : State) (w : Word) : (s.push w).dt = s.dt := rfl
@[simp] theorem State.push_st (s : State) (w : Word) : (s.push w).st = s.st := rfl
@[simp] theorem State.push_rng (s : State) (w : Word) : (s.push w).rng = s.rng := rfl
@[simp] theorem State.push_kw (s : State) (w : Word) : (s.push w).kw = s.kw := rfl
@[simp] theorem State.push_mem (s : State) (w : Word) : (s.push w).mem = s.mem := rfl
@[simp] theorem State.push_fb (s : State) (w : Word) : (s.push w).fb = s.fb := rfl
@[simp] theorem State.push_keypads (s : State) (w : Word) : (s.push w).keypads = s.keypads := rfl
@[simp] theorem State.push_ticks (s : State) (w : Word) : (s.push w).ticks = s.ticks := rfl
@[simp] theorem State.push_loaded (s : State) (w : Word) : (s.push w).loaded = s.loaded := rfl
@[simp] theorem State.push_readV (s : State) (w : Word) (q : Reg) : (s.push w).readV q = s.readV q := rfl
@[simp] theorem State.push_readByte (s : State) (w : Word) (q : Nat) : (s.push w).readByte q = s.readByte q := rfl
@[simp] theorem State.push_keyDown (s : State) (w : Word) (q : Key) : (s.push w).keyDown q = s.keyDown q := rfl

/-! ### `pop` -/

@[simp] theorem State.pop_cfg (s : State) : (s.pop).cfg = s.cfg := rfl
@[simp] theorem State.pop_v (s : State) : (s.pop).v = s.v := rfl
@[simp] theorem State.pop_pc (s : State) : (s.pop).pc = s.pc := rfl
@[simp] theorem State.pop_index (s : State) : (s.pop).index = s.index := rfl
@[simp] theorem State.pop_stack (s : State) : (s.pop).stack = s.stack := rfl
@[simp] theorem State.pop_sp (s : State) : (s.pop).sp = s.sp - 1 := rfl
@[simp] theorem State.pop_dt (s : State) : (s.pop).dt = s.dt := rfl
@[simp] theorem State.pop_st (s : State) : (s.pop).st = s.st := rfl
@[simp] theorem State.pop_rng (s : State) : (s.pop).rng = s.rng := rfl
@[simp] theorem State.pop_kw (s : State) : (s.pop).kw = s.kw := rfl
@[simp] theorem State.pop_mem (s : State) : (s.pop).mem = s.mem := rfl
@[simp] theorem State.pop_fb (s : State) : (s.pop).fb = s.fb := rfl
@[simp] theorem State.pop_keypads (s : State) : (s.pop).keypads = s.keypads := rfl
@[simp] theorem State.pop_ticks (s : State) : (s.pop).ticks = s.ticks := rfl
@[simp] theorem State.pop_loaded (s : State) : (s.pop).loaded = s.loaded := rfl
@[simp] theorem State.pop_readV (s : State) (q : Reg) : (s.pop).readV q = s.readV q := rfl
@[simp] theorem State.pop_readByte (s : State) (q : Nat) : (s.pop).readByte q = s.readByte q := rfl
@[simp] theorem State.pop_keyDown (s : State) (q : Key) : (s.pop).keyDown q = s.keyDown q := rfl

/-! ### `setDt` -/

@[simp] theorem State.setDt_cfg (s : State) (b : Byte) : (s.setDt b).cfg = s.cfg := rfl
@[simp] theorem State.setDt_v (s : State) (b : Byte) : (s.setDt b).v = s.v := rfl
@[simp] theorem State.setDt_pc (s : State) (b : Byte) : (s.setDt b).pc = s.pc := rfl
@[simp] theorem State.setDt_index (s : State) (b : Byte) : (s.setDt b).index = s.index := rfl
@[simp] theorem State.setDt_stack (s : State) (b : Byte) : (s.setDt b).stack = s.stack := rfl
@[simp] theorem State.setDt_sp (s : State) (b : Byte) : (s.setDt b).sp = s.sp := rfl
@[simp] theorem State.setDt_dt (s : State) (b : Byte) : (s.setDt b).dt = b := rfl
@[simp] theorem State.setDt_st (s : State) (b : Byte) : (s.setDt b).st = s.st := rfl
@[simp] theorem State.setDt_rng (s : State) (b : Byte) : (s.setDt b).rng = s.rng := rfl
@[simp] theorem State.setDt_kw (s : State) (b : Byte) : (s.setDt b).kw = s.kw := rfl
@[simp] theorem State.setDt_mem (s : State) (b : Byte) : (s.setDt b).mem = s.mem := rfl
@[simp] theorem State.setDt_fb (s : State) (b : Byte) : (s.setDt b).fb = s.fb := rfl
@[simp] theorem State.setDt_keypads (s : State) (b : Byte) : (s.setDt b).keypads = s.keypads := rfl
@[simp] theorem State.setDt_ticks (s : State) (b : Byte) : (s.setDt b).ticks = s.ticks := rfl
@[simp] theorem State.setDt_loaded (s : State) (b : Byte) : (s.setDt b).loaded = s.loaded := rfl
@[simp] theorem State.setDt_readV (s : State) (b : Byte) (q : Reg) : (s.setDt b).readV q = s.readV q := rfl
@[simp] theorem State.setDt_readByte (s : State) (b : Byte) (q : Nat) : (s.setDt b).readByte q = s.readByte q := rfl
@[simp] theorem State.setDt_keyDown (s : State) (b : Byte) (q : Key) : (s.setDt b).keyDown q = s.keyDown q := rfl

/-! ### `setSt` -/

@[simp] theorem State.setSt_cfg (s : State) (b : Byte) : (s.setSt b).cfg = s.cfg := rfl
@[simp] theorem State.setSt_v (s : State) (b : Byte) : (s.setSt b).v = s.v := rfl
@[simp] theorem State.setSt_pc (s : State) (b : Byte) : (s.setSt b).pc = s.pc := rfl
@[simp] theorem State.setSt_index (s : State) (b : Byte) : (s.setSt b).index = s.index := rfl
@[simp] theorem State.setSt_stack (s : State) (b : Byte) : (s.setSt b).stack = s.stack := rfl
@[simp] theorem State.setSt_sp (s : State) (b : Byte) : (s.setSt b).sp = s.sp := rfl
@[simp] theorem State.setSt_dt (s : State) (b : Byte) : (s.setSt b).dt = s.dt := rfl
@[simp] theorem State.setSt_st (s : State) (b : Byte) : (s.setSt b).st = b := rfl
@[simp] theorem State.setSt_rng (s : State) (b : Byte) : (s.setSt b).rng = s.rng := rfl
@[simp] theorem State.setSt_kw (s : State) (b : Byte) : (s.setSt b).kw = s.kw := rfl
@[simp] theorem State.setSt_mem (s : State) (b : Byte) : (s.setSt b).mem = s.mem := rfl
@[simp] theorem State.setSt_fb (s : State) (b : Byte) : (s.setSt b).fb = s.fb := rfl
@[simp] theorem State.setSt_keypads (s : State) (b : Byte) : (s.setSt b).keypads = s.keypads := rfl
@[simp] theorem State.setSt_ticks (s : State) (b : Byte) : (s.setSt b).ticks = s.ticks := rfl
@[simp] theorem State.setSt_loaded (s : State) (b : Byte) : (s.setSt b).loaded = s.loaded := rfl
@[simp] theorem State.setSt_readV (s : State) (b : Byte) (q : Reg) : (s.setSt b).readV q = s.readV q := rfl
@[simp] theorem State.setSt_readByte (s : State) (b : Byte) (q : Nat) : (s.setSt b).readByte q = s.readByte q := rfl
@[simp] theorem State.setSt_keyDown (s : State) (b : Byte) (q : Key) : (s.setSt b).keyDown q = s.keyDown q := rfl

/-! ### `setRng` -/

@[simp] theorem State.setRng_cfg (s : State) (b : Byte) : (s.setRng b).cfg = s.cfg := rfl
@[simp] theorem State.setRng_v (s : State) (b : Byte) : (s.setRng b).v = s.v := rfl
@[simp] theorem State.setRng_pc (s : State) (b : Byte) : (s.setRng b).pc = s.pc := rfl
@[simp] theorem State.setRng_index (s : State) (b : Byte) : (s.setRng b).index = s.index := rfl
@[simp] theorem State.setRng_stack (s : State) (b : Byte) : (s.setRng b).stack = s.stack := rfl
@[simp] theorem State.setRng_sp (s : State) (b : Byte) : (s.setRng b).sp = s.sp := rfl
@[simp] theorem State.setRng_dt (s : State) (b : Byte) : (s.setRng b).dt = s.dt := rfl
@[simp] theorem State.setRng_st (s : State) (b : Byte) : (s.setRng b).st = s.st := rfl
@[simp] theorem State.setRng_rng (s : State) (b : Byte) : (s.setRng b).rng = b := rfl
@[simp] theorem State.setRng_kw (s : State) (b : Byte) : (s.setRng b).kw = s.kw := rfl
@[simp] theorem State.setRng_mem (s : State) (b : Byte) : (s.setRng b).mem = s.mem := rfl
@[simp] theorem State.setRng_fb (s : State) (b : Byte) : (s.setRng b).fb = s.fb := rfl
@[simp] theorem State.setRng_keypads (s : State) (b : Byte) : (s.setRng b).keypads = s.keypads := rfl
@[simp] theorem State.setRng_ticks (s : State) (b : Byte) : (s.setRng b).ticks = s.ticks := rfl
@[simp] theorem State.setRng_loaded (s : State) (b : Byte) : (s.setRng b).loaded = s.loaded := rfl
@[simp] theorem State.setRng_readV (s : State) (b : Byte) (q : Reg) : (s.setRng b).readV q = s.readV q := rfl
@[simp] theorem State.setRng_readByte (s : State) (b : Byte) (q : Nat) : (s.setRng b).readByte q = s.readByte q := rfl
@[simp] theorem State.setRng_keyDown (s : State) (b : Byte) (q : Key) : (s.setRng b).keyDown q = s.keyDown q := rfl

/-! ### `setKw` -/

@[simp] theorem State.setKw_cfg (s : State) (k : KeyWait) : (s.setKw k).cfg = s.cfg := rfl
@[simp] theorem State.setKw_v (s : State) (k : KeyWait) : (s.setKw k).v = s.v := rfl
@[simp] theorem State.setKw_pc (s : State) (k : KeyWait) : (s.setKw k).pc = s.pc := rfl
@[simp] theorem State.setKw_index (s : State) (k : KeyWait) : (s.setKw k).index = s.index := rfl
@[simp] theorem State.setKw_stack (s : State) (k : KeyWait) : (s.setKw k).stack = s.stack := rfl
@[simp] theorem State.setKw_sp (s : State) (k : KeyWait) : (s.setKw k).sp = s.sp := rfl
@[simp] theorem State.setKw_dt (s : State) (k : KeyWait) : (s.setKw k).dt = s.dt := rfl
@[simp] theorem State.setKw_st (s : State) (k : KeyWait) : (s.setKw k).st = s.st := rfl
@[simp] theorem State.setKw_rng (s : State) (k : KeyWait) : (s.setKw k).rng = s.rng := rfl
@[simp] theorem State.setKw_kw (s : State) (k : KeyWait) : (s.setKw k).kw = k := rfl
@[simp] theorem State.setKw_mem (s : State) (k : KeyWait) : (s.setKw k).mem = s.mem := rfl
@[simp] theorem State.setKw_fb (s : State) (k : KeyWait) : (s.setKw k).fb = s.fb := rfl
@[simp] theorem State.setKw_keypads (s : State) (k : KeyWait) : (s.setKw k).keypads = s.keypads := rfl
@[simp] theorem State.setKw_ticks (s : State) (k : KeyWait) : (s.setKw k).ticks = s.ticks := rfl
@[simp] theorem State.setKw_loaded (s : State) (k : KeyWait) : (s.setKw k).loaded = s.loaded := rfl
@[simp] theorem State.setKw_readV (s : State) (k : KeyWait) (q : Reg) : (s.setKw k).readV q = s.readV q := rfl
@[simp] theorem State.setKw_readByte (s : State) (k : KeyWait) (q : Nat) : (s.setKw k).readByte q = s.readByte q := rfl
@[simp] theorem State.setKw_keyDown (s : State) (k : KeyWait) (q : Key) : (s.setKw k).keyDown q = s.keyDown q := rfl

/-! ### `setFb` -/

@[simp] theorem State.setFb_cfg (s : State) (f : Framebuffer) : (s.setFb f).cfg = s.cfg := rfl
@[simp] theorem State.setFb_v (s : State) (f : Framebuffer) : (s.setFb f).v = s.v := rfl
@[simp] theorem State.setFb_pc (s : State) (f : Framebuffer) : (s.setFb f).pc = s.pc := rfl
@[simp] theorem State.setFb_index (s : State) (f : Framebuffer) : (s.setFb f).index = s.index := rfl
@[simp] theorem State.setFb_stack (s : State) (f : Framebuffer) : (s.setFb f).stack = s.stack := rfl
@[simp] theorem State.setFb_sp (s : State) (f : Framebuffer) : (s.setFb f).sp = s.sp := rfl
@[simp] theorem State.setFb_dt (s : State) (f : Framebuffer) : (s.setFb f).dt = s.dt := rfl
@[simp] theorem State.setFb_st (s : State) (f : Framebuffer) : (s.setFb f).st = s.st := rfl
@[simp] theorem State.setFb_rng (s : State) (f : Framebuffer) : (s.setFb f).rng = s.rng := rfl
@[simp] theorem State.setFb_kw (s : State) (f : Framebuffer) : (s.setFb f).kw = s.kw := rfl
@[simp] theorem State.setFb_mem (s : State) (f : Framebuffer) : (s.setFb f).mem = s.mem := rfl
@[simp] theorem State.setFb_fb (s : State) (f : Framebuffer) : (s.setFb f).fb = f := rfl
@[simp] theorem State.setFb_keypads (s : State) (f : Framebuffer) : (s.setFb f).keypads = s.keypads := rfl
@[simp] theorem State.setFb_ticks (s : State) (f : Framebuffer) : (s.setFb f).ticks = s.ticks := rfl
@[simp] theorem State.setFb_loaded (s : State) (f : Framebuffer) : (s.setFb f).loaded = s.loaded := rfl
@[simp] theorem State.setFb_readV (s : State) (f : Framebuffer) (q : Reg) : (s.setFb f).readV q = s.readV q := rfl
@[simp] theorem State.setFb_readByte (s : State) (f : Framebuffer) (q : Nat) : (s.setFb f).readByte q = s.readByte q := rfl
@[simp] theorem State.setFb_keyDown (s : State) (f : Framebuffer) (q : Key) : (s.setFb f).keyDown q = s.keyDown q := rfl

/-! ### `writeBytes` -/

@[simp] theorem State.writeBytes_cfg (s : State) (a : Nat) (bs : List Byte) : (s.writeBytes a bs).cfg = s.cfg := rfl
@[simp] theorem State.writeBytes_v (s : State) (a : Nat) (bs : List Byte) : (s.writeBytes a bs).v = s.v := rfl
@[simp] theorem State.writeBytes_pc (s : State) (a : Nat) (bs : List Byte) : (s.writeBytes a bs).pc = s.pc := rfl
@[simp] theorem State.writeBytes_index (s : State) (a : Nat) (bs : List Byte) : (s.writeBytes a bs).index = s.index := rfl
@[simp] theorem State.writeBytes_stack (s : State) (a : Nat) (bs : List Byte) : (s.writeBytes a bs).stack = s.stack := rfl
@[simp] theorem State.writeBytes_sp (s : State) (a : Nat) (bs : List Byte) : (s.writeBytes a bs).sp = s.sp := rfl
@[simp] theorem State.writeBytes_dt (s : State) (a : Nat) (bs : List Byte) : (s.writeBytes a bs).dt = s.dt := rfl
@[simp] theorem State.writeBytes_st (s : State) (a : Nat) (bs : List Byte) : (s.writeBytes a bs).st = s.st := rfl
@[simp] theorem State.writeBytes_rng (s : State) (a : Nat) (bs : List Byte) : (s.writeBytes a bs).rng = s.rng := rfl
@[simp] theorem State.writeBytes_kw (s : State) (a : Nat) (bs : List Byte) : (s.writeBytes a bs).kw = s.kw := rfl
@[simp] theorem State.writeBytes_mem (s : State) (a : Nat) (bs : List Byte) : (s.writeBytes a bs).mem = Memory.writeAll s.cfg s.mem a bs := rfl
@[simp] theorem State.writeBytes_fb (s : State) (a : Nat) (bs : List Byte) : (s.writeBytes a bs).fb = s.fb := rfl
@[simp] theorem State.writeBytes_keypads (s : State) (a : Nat) (bs : List Byte) : (s.writeBytes a bs).keypads = s.keypads := rfl
@[simp] theorem State.writeBytes_ticks (s : State) (a : Nat) (bs : List Byte) : (s.writeBytes a bs).ticks = s.ticks := rfl
@[simp] theorem State.writeBytes_loaded (s : State) (a : Nat) (bs : List Byte) : (s.writeBytes a bs).loaded = s.loaded := rfl
@[simp] theorem State.writeBytes_readV (s : State) (a : Nat) (bs : List Byte) (q : Reg) : (s.writeBytes a bs).readV q = s.readV q := rfl
@[simp] theorem State.writeBytes_keyDown (s : State) (a : Nat) (bs : List Byte) (q : Key) : (s.writeBytes a bs).keyDown q = s.keyDown q := rfl

/-! ### `timerStep` -/

@[simp] theorem State.timerStep_cfg (s : State) : (s.timerStep).cfg = s.cfg := rfl
@[simp] theorem State.timerStep_v (s : State) : (s.timerStep).v = s.v := rfl
@[simp] theorem State.timerStep_pc (s : State) : (s.timerStep).pc = s.pc := rfl
@[simp] theorem State.timerStep_index (s : State) : (s.timerStep).index = s.index := rfl
@[simp] theorem State.timerStep_stack (s : State) : (s.timerStep).stack = s.stack := rfl
@[simp] theorem State.timerStep_sp (s : State) : (s.timerStep).sp = s.sp := rfl
@[simp] theorem State.timerStep_dt (s : State) : (s.timerStep).dt = countDown s.dt := rfl
@[simp] theorem State.timerStep_st (s : State) : (s.timerStep).st = countDown s.st := rfl
@[simp] theorem State.timerStep_rng (s : State) : (s.timerStep).rng = s.rng := rfl
@[simp] theorem State.timerStep_kw (s : State) : (s.timerStep).kw = s.kw := rfl
@[simp] theorem State.timerStep_mem (s : State) : (s.timerStep).mem = s.mem := rfl
@[simp] theorem State.timerStep_fb (s : State) : (s.timerStep).fb = s.fb := rfl
@[simp] theorem State.timerStep_keypads (s : State) : (s.timerStep).keypads = s.keypads := rfl
@[simp] theorem State.timerStep_ticks (s : State) : (s.timerStep).ticks = s.ticks := rfl
@[simp] theorem State.timerStep_loaded (s : State) : (s.timerStep).loaded = s.loaded := rfl
@[simp] theorem State.timerStep_readV (s : State) (q : Reg) : (s.timerStep).readV q = s.readV q := rfl
@[simp] theorem State.timerStep_readByte (s : State) (q : Nat) : (s.timerStep).readByte q = s.readByte q := rfl
@[simp] theorem State.timerStep_keyDown (s : State) (q : Key) : (s.timerStep).keyDown q = s.keyDown q := rfl

/-! ### `nextInput` -/

@[simp] theorem State.nextInput_cfg (s : State) : (s.nextInput).cfg = s.cfg := rfl
@[simp] theorem State.nextInput_v (s : State) : (s.nextInput).v = s.v := rfl
@[simp] theorem State.nextInput_pc (s : State) : (s.nextInput).pc = s.pc := rfl
@[simp] theorem State.nextInput_index (s : State) : (s.nextInput).index = s.index := rfl
@[simp] theorem State.nextInput_stack (s : State) : (s.nextInput).stack = s.stack := rfl
@[simp] theorem State.nextInput_sp (s : State) : (s.nextInput).sp = s.sp := rfl
@[simp] theorem State.nextInput_dt (s : State) : (s.nextInput).dt = s.dt := rfl
@[simp] theorem State.nextInput_st (s : State) : (s.nextInput).st = s.st := rfl
@[simp] theorem State.nextInput_rng (s : State) : (s.nextInput).rng = s.rng := rfl
@[simp] theorem State.nextInput_kw (s : State) : (s.nextInput).kw = s.kw := rfl
@[simp] theorem State.nextInput_mem (s : State) : (s.nextInput).mem = s.mem := rfl
@[simp] theorem State.nextInput_fb (s : State) : (s.nextInput).fb = s.fb := rfl
@[simp] theorem State.nextInput_keypads (s : State) : (s.nextInput).keypads = s.keypads.tail := rfl
@[simp] theorem State.nextInput_ticks (s : State) : (s.nextInput).ticks = s.ticks + 1 := rfl
@[simp] theorem State.nextInput_loaded (s : State) : (s.nextInput).loaded = s.loaded := rfl
@[simp] theorem State.nextInput_readV (s : State) (q : Reg) : (s.nextInput).readV q = s.readV q := rfl
@[simp] theorem State.nextInput_readByte (s : State) (q : Nat) : (s.nextInput).readByte q = s.readByte q := rfl

/-! ### `autoIndex` -/

@[simp] theorem State.autoIndex_cfg (s : State) (n : Nat) : (s.autoIndex n).cfg = s.cfg := by
  unfold State.autoIndex; split <;> rfl
@[simp] theorem State.autoIndex_v (s : State) (n : Nat) : (s.autoIndex n).v = s.v := by
  unfold State.autoIndex; split <;> rfl
@[simp] theorem State.autoIndex_pc (s : State) (n : Nat) : (s.autoIndex n).pc = s.pc := by
  unfold State.autoIndex; split <;> rfl
@[simp] theorem State.autoIndex_index (s : State) (n : Nat) : (s.autoIndex n).index =
    if s.cfg.indexAutoincrement then s.index + BitVec.ofNat 16 n else s.index := by
  unfold State.autoIndex; split <;> rfl
@[simp] theorem State.autoIndex_stack (s : State) (n : Nat) : (s.autoIndex n).stack = s.stack := by
  unfold State.autoIndex; split <;> rfl
@[simp] theorem State.autoIndex_sp (s : State) (n : Nat) : (s.autoIndex n).sp = s.sp := by
  unfold State.autoIndex; split <;> rfl
@[simp] theorem State.autoIndex_dt (s : State) (n : Nat) : (s.autoIndex n).dt = s.dt := by
  unfold State.autoIndex; split <;> rfl
@[simp] theorem State.autoIndex_st (s : State) (n : Nat) : (s.autoIndex n).st = s.st := by
  unfold State.autoIndex; split <;> rfl
@[simp] theorem State.autoIndex_rng (s : State) (n : Nat) : (s.autoIndex n).rng = s.rng := by
  unfold State.autoIndex; split <;> rfl
@[simp] theorem State.autoIndex_kw (s : State) (n : Nat) : (s.autoIndex n).kw = s.kw := by
  unfold State.autoIndex; split <;> rfl
@[simp] theorem State.autoIndex_mem (s : State) (n : Nat) : (s.autoIndex n).mem = s.mem := by
  unfold State.autoIndex; split <;> rfl
@[simp] theorem State.autoIndex_fb (s : State) (n : Nat) : (s.autoIndex n).fb = s.fb := by
  unfold State.autoIndex; split <;> rfl
@[simp] theorem State.autoIndex_keypads (s : State) (n : Nat) : (s.autoIndex n).keypads = s.keypads := by
  unfold State.autoIndex; split <;> rfl
@[simp] theorem State.autoIndex_ticks (s : State) (n : Nat) : (s.autoIndex n).ticks = s.ticks := by
  unfold State.autoIndex; split <;> rfl
@[simp] theorem State.autoIndex_loaded (s : State) (n : Nat) : (s.autoIndex n).loaded = s.loaded := by
  unfold State.autoIndex; split <;> rfl
@[simp] theorem State.autoIndex_readV (s : State) (n : Nat) (q : Reg) : (s.autoIndex n).readV q = s.readV q := by
  unfold State.autoIndex; split <;> rfl
@[simp] theorem State.autoIndex_readByte (s : State) (n : Nat) (q : Nat) : (s.autoIndex n).readByte q = s.readByte q := by
  unfold State.autoIndex; split <;> rfl

/-! ### Registers -/

/-- A write is read back, and leaves every other register alone (R11). -/
@[simp] theorem State.readV_writeV (s : State) (r q : Reg) (b : Byte) :
    (s.writeV r b).readV q = if r = q then b else s.readV q := by
  simp only [State.readV, State.writeV, Vector.getElem_set, Fin.val_inj]

theorem State.readV_writeV_self (s : State) (r : Reg) (b : Byte) : (s.writeV r b).readV r = b := by simp

theorem State.readV_writeV_ne (s : State) {r q : Reg} (b : Byte) (h : r ≠ q) : (s.writeV r b).readV q = s.readV q := by
  simp [h]

/-- What a run of register loads leaves in each register (R140). -/
theorem getElem_setRegsFrom (v : Vector Byte 16) (j : Nat) (bs : List Byte) (q : Nat) (hq : q < 16) :
    (setRegsFrom v j bs)[q] = if h : j ≤ q ∧ q - j < bs.length then bs[q - j] else v[q] := by
  induction bs generalizing v j with
  | nil => simp [setRegsFrom]
  | cons b bs ih =>
    rw [setRegsFrom, ih]
    rcases Nat.lt_trichotomy q j with h | rfl | h
    · have : ¬ (j + 1 ≤ q) := by omega
      have : ¬ (j ≤ q) := by omega
      have : j ≠ q := by omega
      simp [*]
    · have : ¬ (q + 1 ≤ q) := by omega
      simp [this]
    · have h1 : j + 1 ≤ q := h
      have h2 : j ≤ q := by omega
      have h3 : j ≠ q := by omega
      have h4 : q - j = (q - (j + 1)) + 1 := by omega
      by_cases hl : q - (j + 1) < bs.length
      · simp [h1, h2, hl, h4]
      · have hl' : ¬ (q - j < bs.length + 1) := by omega
        simp [h1, h2, h3, hl, hl']

/-- "for j in 0 .. X: V[j] <- t[j]" (R140): the registers the list reaches, and no other. -/
theorem State.loadRegs_readV (s : State) (bs : List Byte) (q : Reg) :
    (s.loadRegs bs).readV q = if h : q.val < bs.length then bs[q.val] else s.readV q := by
  simp [State.readV, State.loadRegs, getElem_setRegsFrom]

end Sys2Proof.Machine
end

