-- ==== Sys2Proof/Laws/Memory.lean ====
section
/-! SUPPORT. Memory: a read after a write, every other address alone, the canonical form kept (R43, R44), and what the range check,
the fetch and a block of writes do. -/

namespace Sys2Proof.Machine

theorem Memory.lookup_insert (m : Memory) (a b : Nat) (x : Byte) :
    (Memory.insert m a x).lookup b = if b = a then some x else m.lookup b := by
  induction m with
  | nil => simp [Memory.insert, Memory.lookup]
  | cons p m ih =>
    obtain ⟨k, y⟩ := p
    simp only [Memory.insert]
    split
    · simp [Memory.lookup]
    · split
      · rename_i h1 h2
        subst h2
        simp only [Memory.lookup]
        split <;> rfl
      · rename_i h1 h2
        simp only [Memory.lookup, ih]
        by_cases hb : b = k
        · simp [hb]; omega
        · simp [hb]

theorem Memory.lookup_filter_ne (m : Memory) (a b : Nat) :
    Memory.lookup (m.filter (fun p => p.1 ≠ a)) b = if b = a then none else m.lookup b := by
  induction m with
  | nil => simp [Memory.lookup]
  | cons p m ih =>
    obtain ⟨k, y⟩ := p
    by_cases hk : k = a
    · subst hk
      simp only [ne_eq, not_true_eq_false, decide_false, Bool.false_eq_true, not_false_eq_true,
        List.filter_cons_of_neg, Memory.lookup]
      rw [ih]
      split <;> rfl
    · have hd : decide (k ≠ a) = true := by simp [hk]
      rw [List.filter_cons_of_pos (by simpa using hk)]
      simp only [Memory.lookup, ih]
      by_cases hb : b = k
      · simp [hb, hk]
      · simp [hb]

/-- A read after one write (R43, R44). -/
theorem Memory.read_write (c : Config) (m : Memory) (a b : Nat) (x : Byte) :
    Memory.read c (Memory.write c m a x) b = if b = a then x else Memory.read c m b := by
  unfold Memory.write Memory.read
  split
  · rename_i h
    rw [Memory.lookup_filter_ne]
    split
    · rename_i hb; simp [hb, h]
    · rfl
  · rw [Memory.lookup_insert]
    split <;> rfl

theorem Memory.mem_insert {m : Memory} {a : Nat} {x : Byte} {p : Host.Cell} (h : p ∈ Memory.insert m a x) :
    p = (a, x) ∨ p ∈ m := by
  induction m with
  | nil => simpa [Memory.insert] using h
  | cons q m ih =>
    obtain ⟨k, y⟩ := q
    simp only [Memory.insert] at h
    split at h
    · simpa using h
    · split at h
      · rcases List.mem_cons.mp h with h | h
        · exact .inl h
        · exact .inr (List.mem_cons_of_mem _ h)
      · rcases List.mem_cons.mp h with h | h
        · exact .inr (h ▸ List.mem_cons_self)
        · exact (ih h).imp id (List.mem_cons_of_mem _)

theorem Memory.insert_sorted {m : Memory} (a : Nat) (x : Byte) (h : m.Pairwise (fun p q => p.1 < q.1)) :
    (Memory.insert m a x).Pairwise (fun p q => p.1 < q.1) := by
  induction m with
  | nil => simp [Memory.insert]
  | cons q m ih =>
    obtain ⟨k, y⟩ := q
    obtain ⟨hk, hm⟩ := List.pairwise_cons.mp h
    simp only [Memory.insert]
    split
    · rename_i hlt
      refine List.pairwise_cons.mpr ⟨fun p hp => ?_, h⟩
      rcases List.mem_cons.mp hp with rfl | hp
      · exact hlt
      · exact Nat.lt_trans hlt (hk p hp)
    · split
      · rename_i h1 h2
        subst h2
        exact List.pairwise_cons.mpr ⟨hk, hm⟩
      · rename_i h1 h2
        refine List.pairwise_cons.mpr ⟨fun p hp => ?_, ih hm⟩
        rcases Memory.mem_insert hp with rfl | hp
        · show k < a; omega
        · exact hk p hp

/-- A write in range keeps the canonical form. -/
theorem Memory.write_wf {c : Config} {m : Memory} {a : Nat} (x : Byte) (h : Memory.wf c m) (ha : a < Config.memSize) :
    Memory.wf c (Memory.write c m a x) := by
  unfold Memory.write
  split
  · exact ⟨h.1.filter _, fun p hp => h.2 p (List.mem_filter.mp hp).1⟩
  · rename_i hx
    refine ⟨Memory.insert_sorted a x h.1, fun p hp => ?_⟩
    rcases Memory.mem_insert hp with rfl | hp
    · exact ⟨ha, hx⟩
    · exact h.2 p hp

/-- A block of writes in range keeps the canonical form. -/
theorem Memory.writeAll_wf {c : Config} {m : Memory} {a : Nat} {bs : List Byte} (h : Memory.wf c m)
    (hr : a + bs.length ≤ Config.memSize) : Memory.wf c (Memory.writeAll c m a bs) := by
  induction bs generalizing m a with
  | nil => exact h
  | cons b bs ih =>
    simp only [List.length_cons] at hr
    exact ih (Memory.write_wf b h (by omega)) (by omega)

/-- Memory right after reset, which lists nothing, is in canonical form. -/
theorem reset_mem_wf (c : Config) : Memory.wf (State.resetWith c).cfg (State.resetWith c).mem :=
  ⟨List.Pairwise.nil, fun _ h => (nomatch h)⟩

/-- What each address holds after a block of writes (R49). -/
theorem Memory.read_writeAll (c : Config) (m : Memory) (a q : Nat) (bs : List Byte) :
    Memory.read c (Memory.writeAll c m a bs) q =
      if h : a ≤ q ∧ q - a < bs.length then bs[q - a] else Memory.read c m q := by
  induction bs generalizing m a with
  | nil => simp [Memory.writeAll]
  | cons b bs ih =>
    rw [Memory.writeAll, ih, Memory.read_write]
    rcases Nat.lt_trichotomy q a with h | rfl | h
    · have : ¬ (a + 1 ≤ q) := by omega
      have : ¬ (a ≤ q) := by omega
      have : q ≠ a := by omega
      simp [*]
    · have : ¬ (q + 1 ≤ q) := by omega
      simp [this]
    · have h1 : a + 1 ≤ q := h
      have h2 : a ≤ q := by omega
      have h3 : q ≠ a := by omega
      have h4 : q - a = (q - (a + 1)) + 1 := by omega
      by_cases hl : q - (a + 1) < bs.length
      · simp [h1, h2, hl, h4]
      · have hl' : ¬ (q - a < bs.length + 1) := by omega
        simp [h1, h2, h3, hl, hl']

/-- A store in range keeps the canonical form. -/
theorem State.writeBytes_mem_wf {s : State} {a : Nat} {bs : List Byte} (h : Memory.wf s.cfg s.mem)
    (hr : a + bs.length ≤ Config.memSize) : Memory.wf (s.writeBytes a bs).cfg (s.writeBytes a bs).mem :=
  Memory.writeAll_wf h hr

theorem State.writeBytes_readByte (s : State) (a q : Nat) (bs : List Byte) :
    (s.writeBytes a bs).readByte q = if h : a ≤ q ∧ q - a < bs.length then bs[q - a] else s.readByte q :=
  Memory.read_writeAll s.cfg s.mem a q bs

@[simp] theorem State.readBytes_length (s : State) (a n : Nat) : (s.readBytes a n).length = n := by
  simp [State.readBytes]

@[simp] theorem State.readBytes_getElem (s : State) (a n j : Nat) (h : j < (s.readBytes a n).length) :
    (s.readBytes a n)[j] = s.readByte (a + j) := by
  simp [State.readBytes]

/-- The bytes read depend on memory and configuration through `readByte` alone. -/
theorem State.readBytes_congr {s t : State} {a n : Nat} (h : ∀ j, j < n → t.readByte (a + j) = s.readByte (a + j)) :
    t.readBytes a n = s.readBytes a n := by
  refine List.ext_getElem (by simp) fun j h1 h2 => ?_
  simpa using h j (by simpa using h1)

/-! ### Range check and single accesses (R42 to R46) -/

theorem checkRange_ok {a n : Nat} (h : n = 0 ∨ a + n - 1 < Config.memSize) : checkRange a n = .ok () := by
  unfold checkRange
  rcases h with rfl | h
  · simp
  · by_cases hn : n = 0
    · rw [if_pos hn]
    · rw [if_neg hn, if_pos h]

theorem checkRange_error {a n : Nat} (hn : n ≠ 0) (h : Config.memSize ≤ a + n - 1) :
    checkRange a n = .error (.outOfBoundsMemoryAccess (max a Config.memSize)) := by
  unfold checkRange
  rw [if_neg hn, if_neg (by omega)]

/-- A checked instruction in range runs its effect. -/
theorem withRange_ok {a n : Nat} (e : Result) (h : n = 0 ∨ a + n - 1 < Config.memSize) : withRange a n e = e := by
  simp [withRange, checkRange_ok h]

/-- A checked instruction out of range fails with the lowest address, its effect undone. -/
theorem withRange_fault {a n : Nat} (e : Result) (hn : n ≠ 0) (h : Config.memSize ≤ a + n - 1) :
    withRange a n e = .fault (.outOfBoundsMemoryAccess (max a Config.memSize)) := by
  simp only [withRange, checkRange_error hn h, raise]

/-- All a checked instruction can do. -/
theorem withRange_cases (a n : Nat) (e : Result) :
    (withRange a n e = e ∧ (n = 0 ∨ a + n - 1 < Config.memSize)) ∨
    (withRange a n e = .fault (.outOfBoundsMemoryAccess (max a Config.memSize)) ∧ n ≠ 0 ∧ Config.memSize ≤ a + n - 1) := by
  by_cases h : n = 0 ∨ a + n - 1 < Config.memSize
  · exact .inl ⟨withRange_ok e h, h⟩
  · exact .inr ⟨withRange_fault e (by omega) (by omega), by omega, by omega⟩

/-- A single checked write that succeeds keeps the canonical form (R44). -/
theorem memWrite_mem_wf {s t : State} {a : Nat} {b : Byte} (h : Memory.wf s.cfg s.mem) (hw : memWrite s a b = .ok t) :
    Memory.wf t.cfg t.mem := by
  unfold memWrite at hw
  split at hw
  · cases hw
    exact State.writeBytes_mem_wf h (by simp only [List.length_cons, List.length_nil]; omega)
  · cases hw

theorem fetch_ok {s : State} {a : Nat} (h : a + 1 < Config.memSize) :
    fetch s a = .ok (wordOfBytes (s.readByte a) (s.readByte (a + 1))) := by
  unfold fetch memRead
  rw [if_pos (by omega), if_pos h]

theorem fetch_error_first {s : State} {a : Nat} (h : Config.memSize ≤ a) :
    fetch s a = .error (.outOfBoundsMemoryAccess a) := by
  unfold fetch memRead
  rw [if_neg (by omega)]

theorem fetch_error_second {s : State} {a : Nat} (h : a + 1 = Config.memSize) :
    fetch s a = .error (.outOfBoundsMemoryAccess (a + 1)) := by
  unfold fetch memRead
  rw [if_pos (by omega), if_neg (by omega)]

/-- A successful fetch was of two addresses in range. -/
theorem fetch_range {s : State} {a : Nat} {w : Word} (h : fetch s a = .ok w) : a + 1 < Config.memSize := by
  by_contra hn
  rcases Nat.lt_or_ge a Config.memSize with h1 | h1
  · rw [fetch_error_second (by omega)] at h; cases h
  · rw [fetch_error_first h1] at h; cases h

/-- A fetched word as a number (R45). -/
theorem wordOfBytes_toNat (hi lo : Byte) : (wordOfBytes hi lo).toNat = 256 * hi.toNat + lo.toNat := by
  unfold wordOfBytes
  rw [BitVec.toNat_append, ← Nat.shiftLeft_add_eq_or_of_lt lo.isLt, Nat.shiftLeft_eq]
  omega

end Sys2Proof.Machine
end

