-- ==== Sys2Proof/Laws/Frame.lean ====
section
/-! SUPPORT. `KeepsAllBut`: it composes, it widens, and each update of State keeps every part but its own. -/

namespace Sys2Proof.Machine

theorem Part.same_refl (s : State) (p : Part) : p.Same s s := by cases p <;> simp [Part.Same]

theorem Part.same_trans {s t u : State} {p : Part} (h1 : p.Same s t) (h2 : p.Same t u) : p.Same s u := by
  cases p <;> simp_all [Part.Same]

theorem Part.same_symm {s t : State} {p : Part} (h : p.Same s t) : p.Same t s := by
  cases p <;> simp_all [Part.Same]

theorem KeepsAllBut.refl (P : Part → Prop) (s : State) : KeepsAllBut P s s := fun p _ => p.same_refl s

theorem KeepsAllBut.mono {P Q : Part → Prop} {s t : State} (h : KeepsAllBut P s t) (hPQ : ∀ p, P p → Q p) :
    KeepsAllBut Q s t := fun p hp => h p (fun hP => hp (hPQ p hP))

theorem KeepsAllBut.trans {P Q R : Part → Prop} {s t u : State} (h1 : KeepsAllBut P s t) (h2 : KeepsAllBut Q t u)
    (hP : ∀ p, P p → R p) (hQ : ∀ p, Q p → R p) : KeepsAllBut R s u :=
  fun p hp => Part.same_trans (h1 p (fun h => hp (hP p h))) (h2 p (fun h => hp (hQ p h)))

theorem State.setPc_keeps (s : State) (t : Word) : KeepsAllBut (fun p => p = .pc) s (s.setPc t) := by
  intro p hp; cases p <;> simp_all [Part.Same]

theorem State.advance_keeps (s : State) : KeepsAllBut (fun p => p = .pc) s s.advance := s.setPc_keeps _

theorem State.skipIf_keeps (s : State) (m : Bool) : KeepsAllBut (fun p => p = .pc) s (s.skipIf m) := s.setPc_keeps _

theorem State.writeV_keeps (s : State) (r : Reg) (b : Byte) : KeepsAllBut (fun p => p = .reg r) s (s.writeV r b) := by
  intro p hp
  cases p with
  | reg q =>
    have : r ≠ q := fun h => hp (by rw [h])
    simp [Part.Same, this]
  | _ => simp [Part.Same]

theorem State.setIndex_keeps (s : State) (w : Word) : KeepsAllBut (fun p => p = .index) s (s.setIndex w) := by
  intro p hp; cases p <;> simp_all [Part.Same]

theorem State.autoIndex_keeps (s : State) (n : Nat) : KeepsAllBut (fun p => p = .index) s (s.autoIndex n) := by
  intro p hp; cases p <;> simp_all [Part.Same]

theorem State.setDt_keeps (s : State) (b : Byte) : KeepsAllBut (fun p => p = .delay) s (s.setDt b) := by
  intro p hp; cases p <;> simp_all [Part.Same]

theorem State.setSt_keeps (s : State) (b : Byte) : KeepsAllBut (fun p => p = .sound) s (s.setSt b) := by
  intro p hp; cases p <;> simp_all [Part.Same]

theorem State.setRng_keeps (s : State) (b : Byte) : KeepsAllBut (fun p => p = .random) s (s.setRng b) := by
  intro p hp; cases p <;> simp_all [Part.Same]

theorem State.setKw_keeps (s : State) (k : KeyWait) : KeepsAllBut (fun p => p = .keyWait) s (s.setKw k) := by
  intro p hp; cases p <;> simp_all [Part.Same]

theorem State.setFb_keeps (s : State) (f : Framebuffer) : KeepsAllBut (fun p => p = .screen) s (s.setFb f) := by
  intro p hp; cases p <;> simp_all [Part.Same]

theorem State.pop_keeps (s : State) : KeepsAllBut (fun p => p = .sp) s s.pop := by
  intro p hp; cases p <;> simp_all [Part.Same]

theorem State.push_keeps (s : State) (w : Word) : KeepsAllBut (fun p => p = .sp ∨ p = .slot s.sp) s (s.push w) := by
  intro p hp
  cases p with
  | slot k =>
    have : s.sp ≠ k := fun h => hp (.inr (by rw [h]))
    simp [Part.Same, this]
  | _ => simp_all [Part.Same]

theorem State.writeBytes_keeps (s : State) (a : Nat) (bs : List Byte) :
    KeepsAllBut (fun p => ∃ q, p = .byte q ∧ a ≤ q ∧ q < a + bs.length) s (s.writeBytes a bs) := by
  intro p hp
  cases p with
  | byte q =>
    have : ¬ (a ≤ q ∧ q - a < bs.length) := fun h => hp ⟨q, rfl, h.1, by omega⟩
    simp only [Part.Same, State.writeBytes_readByte, dif_neg this]
  | _ => simp_all [Part.Same, State.readV]

theorem State.loadRegs_keeps (s : State) (bs : List Byte) :
    KeepsAllBut (fun p => ∃ q : Reg, p = .reg q ∧ q.val < bs.length) s (s.loadRegs bs) := by
  intro p hp
  cases p with
  | reg q =>
    have : ¬ (q.val < bs.length) := fun h => hp ⟨q, rfl, h⟩
    simp only [Part.Same, State.loadRegs_readV, dif_neg this]
  | _ => simp_all [Part.Same]

theorem State.endTick_keeps (s : State) :
    KeepsAllBut (fun p => p = .delay ∨ p = .sound ∨ p = .input) s s.endTick := by
  intro p hp; cases p <;> simp_all [Part.Same, State.endTick]

/-- A timer's step as a number: one less, 0 staying 0 (R20). -/
theorem countDown_toNat (t : Byte) : (countDown t).toNat = t.toNat - 1 := by
  unfold countDown
  split
  · rename_i h; simp [h]
  · rename_i h
    have : t.toNat ≠ 0 := fun h0 => h (BitVec.eq_of_toNat_eq (by simpa using h0))
    have := t.isLt
    rw [BitVec.toNat_sub]
    simp only [BitVec.reduceToNat, Nat.reducePow, Nat.reduceSub]
    omega

@[simp] theorem State.endTick_dt (s : State) : s.endTick.dt = countDown s.dt := rfl
@[simp] theorem State.endTick_st (s : State) : s.endTick.st = countDown s.st := rfl

end Sys2Proof.Machine
end

