-- ==== Sys2Proof/Laws/Exec.lean ====
section
/-! SUPPORT. What the operations the meanings share do: operand forms and flags as numbers, the finishing of an ALU instruction, and
the two outcomes of an instruction that checks its range. -/

namespace Sys2Proof.Machine

/-! ### Operand forms and flags as numbers -/

theorem zext12_toNat (a : Addr12) : (zext12 a).toNat = a.toNat := by
  rw [zext12, BitVec.toNat_setWidth]
  have := a.isLt
  omega

theorem zext8_toNat (b : Byte) : (zext8 b).toNat = b.toNat := by
  rw [zext8, BitVec.toNat_setWidth]
  have := b.isLt
  omega

theorem lowNibble_val (b : Byte) : (lowNibble b).val = b.toNat % 16 := by
  rw [lowNibble, regOfBits_val, BitVec.extractLsb'_toNat]
  rfl

theorem flagByte_toNat (b : Bool) : (flagByte b).toNat = if b then 1 else 0 := by cases b <;> rfl

theorem flagByte_zero_or_one (b : Bool) : flagByte b = 0 ∨ flagByte b = 1 := by cases b <;> simp [flagByte]

@[simp] theorem flagByte_eq_one (b : Bool) : flagByte b = 1 ↔ b = true := by cases b <;> simp [flagByte]

@[simp] theorem flagByte_eq_zero (b : Bool) : flagByte b = 0 ↔ b = false := by cases b <;> simp [flagByte]

theorem carryOut_toNat (a b : Byte) : (carryOut a b).toNat = if 255 < a.toNat + b.toNat then 1 else 0 := by
  simp only [carryOut, flagByte_toNat, decide_eq_true_eq]

theorem noBorrow_toNat (a b : Byte) : (noBorrow a b).toNat = if b.toNat ≤ a.toNat then 1 else 0 := by
  simp only [noBorrow, flagByte_toNat, decide_eq_true_eq]

theorem bitOutRight_toNat : ∀ a : Byte, (bitOutRight a).toNat = a.toNat % 2 := by decide

theorem bitOutLeft_toNat : ∀ a : Byte, (bitOutLeft a).toNat = a.toNat / 128 := by decide

theorem sub_toNat (a b : Byte) :
    (a - b).toNat = if b.toNat ≤ a.toNat then a.toNat - b.toNat else a.toNat + 256 - b.toNat := by
  have := a.isLt
  have := b.isLt
  rw [BitVec.toNat_sub]
  split <;> omega

/-! ### Finishing a register instruction (R100 to R112) -/

theorem writeV_advance_keeps (s : State) (x : Reg) (r : Byte) :
    KeepsAllBut (fun p => p = .pc ∨ p = .reg x) s (s.writeV x r).advance :=
  (s.writeV_keeps x r).trans (State.advance_keeps _) (fun _ h => .inr h) (fun _ h => .inl h)

theorem writeWithFlag_advance_keeps (s : State) (x : Reg) (r f : Byte) :
    KeepsAllBut (fun p => p = .pc ∨ p = .reg x ∨ p = .reg 15) s (s.writeWithFlag x r f).advance :=
  ((s.writeV_keeps x r).trans (State.writeV_keeps _ Reg.vf f) (R := fun p => p = .reg x ∨ p = .reg 15)
    (fun _ h => .inl h) (fun _ h => .inr h)).trans (State.advance_keeps _) (fun _ h => .inr h) (fun _ h => .inl h)

/-- The result stands in `V[X]` unless `X` is 15 (R112). -/
theorem writeWithFlag_readV_ne (s : State) {x : Reg} (r f : Byte) (h : x ≠ 15) : (s.writeWithFlag x r f).readV x = r := by
  have : Reg.vf ≠ x := fun h' => h h'.symm
  simp only [State.writeWithFlag, State.readV_writeV, if_neg this, if_true]

/-- `VF` ends as the flag, whatever `X` is (R112). -/
@[simp] theorem writeWithFlag_readV_vf (s : State) (x : Reg) (r f : Byte) : (s.writeWithFlag x r f).readV 15 = f :=
  State.readV_writeV_self _ _ _

/-- Every other register is as it was. -/
theorem writeWithFlag_readV_other (s : State) {x q : Reg} (r f : Byte) (hx : q ≠ x) (hf : q ≠ 15) :
    (s.writeWithFlag x r f).readV q = s.readV q := by
  have h1 : Reg.vf ≠ q := fun h => hf h.symm
  have h2 : x ≠ q := fun h => hx h.symm
  simp only [State.writeWithFlag, State.readV_writeV, if_neg h1, if_neg h2]

/-- `V[0] .. V[X]` is `X + 1` bytes (R139). -/
@[simp] theorem regRange_length (s : State) (x : Reg) : (s.regRange x).length = x.val + 1 := by
  have := x.isLt
  simp only [State.regRange, List.length_take, Vector.length_toList]
  omega

theorem regRange_getElem (s : State) (x : Reg) (j : Nat) (h : j < (s.regRange x).length) :
    (s.regRange x)[j] = s.readV ⟨j, by rw [regRange_length] at h; omega⟩ := by
  simp [State.regRange, State.readV]

/-! ### An instruction that checks its range (R46) -/

/-- When and how a checked instruction whose effect succeeds fails instead. -/
theorem withRange_next_eq_fault {a n : Nat} {t : State} {f : Fault} :
    withRange a n (.next t) = .fault f ↔
      n ≠ 0 ∧ Config.memSize ≤ a + n - 1 ∧ f = .outOfBoundsMemoryAccess (max a Config.memSize) := by
  rcases withRange_cases a n (.next t) with ⟨h1, h2⟩ | ⟨h1, h2, h3⟩
  · rw [h1]
    exact ⟨fun h => (nomatch h), fun h => absurd h2 (by omega)⟩
  · rw [h1, Host.Outcome.fault.injEq]
    exact ⟨fun h => ⟨h2, h3, h.symm⟩, fun h => h.2.2.symm⟩

/-- A checked instruction that succeeds ran its effect, in range. -/
theorem withRange_next {a n : Nat} {e : Result} {t : State} (h : withRange a n e = .next t) :
    e = .next t ∧ (n = 0 ∨ a + n - 1 < Config.memSize) := by
  rcases withRange_cases a n e with ⟨h1, h2⟩ | ⟨h1, -⟩
  · exact ⟨h1 ▸ h, h2⟩
  · rw [h1] at h; cases h

end Sys2Proof.Machine
end

