-- ==== Sys2Proof/Laws/PerInstr.lean ====
section
/-! SUPPORT. For every instruction: its encoding selects a row of the opcode map of R66, and that row reads the instruction back. -/

open Sys2Proof

/-- The instruction's word is one that a row of R66 selects, and the row gives the instruction back, every field kept. -/
def Sys2Proof.Laws.EncodeRow.Statement (i : Instr) : Prop :=
  ∃ r ∈ opcodeMap, r.selects (encode i) = true ∧ r.build (encode i) = i

/-- A row of format ADDR or XNN. -/
theorem Sys2Proof.Laws.EncodeRow.of_op (k : Nat) {r : OpcodeRow} {i : Instr} (op : Nibble) (hk : opcodeMap[k]? = some r)
    (hm : r.mask = 0xF000) (hp : r.pattern = encodeAddr op 0) (ho : fieldOp (encode i) = op) (hb : r.build (encode i) = i) :
    EncodeRow.Statement i :=
  ⟨r, List.mem_of_getElem? hk, by rw [selects_of_mask_F000 r op hm hp, ho, decide_eq_true rfl], hb⟩

/-- A row of format XY. -/
theorem Sys2Proof.Laws.EncodeRow.of_xy (k : Nat) {r : OpcodeRow} {i : Instr} (op n : Nibble) (x y : Reg)
    (hk : opcodeMap[k]? = some r) (hm : r.mask = 0xF00F) (hp : r.pattern = encodeXYN op 0 0 n)
    (he : encode i = encodeXYN op x y n) (hb : r.build (encode i) = i) : EncodeRow.Statement i := by
  obtain ⟨ho, -, -, hn⟩ := fields_encodeXYN op x y n
  exact ⟨r, List.mem_of_getElem? hk, by rw [selects_of_mask_F00F r op n hm hp, he, ho, hn]; simp, hb⟩

/-- A row of format XSUB. -/
theorem Sys2Proof.Laws.EncodeRow.of_xsub (k : Nat) {r : OpcodeRow} {i : Instr} (op : Nibble) (n : Byte) (x : Reg)
    (hk : opcodeMap[k]? = some r) (hm : r.mask = 0xF0FF) (hp : r.pattern = encodeXNN op 0 n)
    (he : encode i = encodeXNN op x n) (hb : r.build (encode i) = i) : EncodeRow.Statement i := by
  obtain ⟨ho, -, hn⟩ := fields_encodeXNN op x n
  exact ⟨r, List.mem_of_getElem? hk, by rw [selects_of_mask_F0FF r op n hm hp, he, ho, hn]; simp, hb⟩

theorem Sys2Proof.Laws.EncodeRow.cls : Sys2Proof.Laws.EncodeRow.Statement .cls :=
  ⟨_, List.mem_of_getElem? (i := 0) rfl, rfl, rfl⟩

theorem Sys2Proof.Laws.EncodeRow.ret : Sys2Proof.Laws.EncodeRow.Statement .ret :=
  ⟨_, List.mem_of_getElem? (i := 1) rfl, rfl, rfl⟩

theorem Sys2Proof.Laws.EncodeRow.jp (a : Addr12) : Sys2Proof.Laws.EncodeRow.Statement (.jp a) :=
  of_op 2 0x1 rfl rfl rfl (fields_encodeAddr 0x1 a).1 (congrArg Instr.jp (fields_encodeAddr 0x1 a).2)

theorem Sys2Proof.Laws.EncodeRow.call (a : Addr12) : Sys2Proof.Laws.EncodeRow.Statement (.call a) :=
  of_op 3 0x2 rfl rfl rfl (fields_encodeAddr 0x2 a).1 (congrArg Instr.call (fields_encodeAddr 0x2 a).2)

theorem Sys2Proof.Laws.EncodeRow.seImm (x : Reg) (nn : Byte) : Sys2Proof.Laws.EncodeRow.Statement (.seImm x nn) :=
  of_op 4 0x3 rfl rfl rfl (fields_encodeXNN 0x3 x nn).1
    (congrArg₂ Instr.seImm (fields_encodeXNN 0x3 x nn).2.1 (fields_encodeXNN 0x3 x nn).2.2)

theorem Sys2Proof.Laws.EncodeRow.sneImm (x : Reg) (nn : Byte) : Sys2Proof.Laws.EncodeRow.Statement (.sneImm x nn) :=
  of_op 5 0x4 rfl rfl rfl (fields_encodeXNN 0x4 x nn).1
    (congrArg₂ Instr.sneImm (fields_encodeXNN 0x4 x nn).2.1 (fields_encodeXNN 0x4 x nn).2.2)

theorem Sys2Proof.Laws.EncodeRow.seReg (x y : Reg) : Sys2Proof.Laws.EncodeRow.Statement (.seReg x y) :=
  of_xy 6 0x5 0x0 x y rfl rfl rfl rfl
    (congrArg₂ Instr.seReg (fields_encodeXYN 0x5 x y 0x0).2.1 (fields_encodeXYN 0x5 x y 0x0).2.2.1)

theorem Sys2Proof.Laws.EncodeRow.ldImm (x : Reg) (nn : Byte) : Sys2Proof.Laws.EncodeRow.Statement (.ldImm x nn) :=
  of_op 7 0x6 rfl rfl rfl (fields_encodeXNN 0x6 x nn).1
    (congrArg₂ Instr.ldImm (fields_encodeXNN 0x6 x nn).2.1 (fields_encodeXNN 0x6 x nn).2.2)

theorem Sys2Proof.Laws.EncodeRow.addImm (x : Reg) (nn : Byte) : Sys2Proof.Laws.EncodeRow.Statement (.addImm x nn) :=
  of_op 8 0x7 rfl rfl rfl (fields_encodeXNN 0x7 x nn).1
    (congrArg₂ Instr.addImm (fields_encodeXNN 0x7 x nn).2.1 (fields_encodeXNN 0x7 x nn).2.2)

theorem Sys2Proof.Laws.EncodeRow.ld (x y : Reg) : Sys2Proof.Laws.EncodeRow.Statement (.ld x y) :=
  of_xy 9 0x8 0x0 x y rfl rfl rfl rfl
    (congrArg₂ Instr.ld (fields_encodeXYN 0x8 x y 0x0).2.1 (fields_encodeXYN 0x8 x y 0x0).2.2.1)

theorem Sys2Proof.Laws.EncodeRow.or (x y : Reg) : Sys2Proof.Laws.EncodeRow.Statement (.or x y) :=
  of_xy 10 0x8 0x1 x y rfl rfl rfl rfl
    (congrArg₂ Instr.or (fields_encodeXYN 0x8 x y 0x1).2.1 (fields_encodeXYN 0x8 x y 0x1).2.2.1)

theorem Sys2Proof.Laws.EncodeRow.and (x y : Reg) : Sys2Proof.Laws.EncodeRow.Statement (.and x y) :=
  of_xy 11 0x8 0x2 x y rfl rfl rfl rfl
    (congrArg₂ Instr.and (fields_encodeXYN 0x8 x y 0x2).2.1 (fields_encodeXYN 0x8 x y 0x2).2.2.1)

theorem Sys2Proof.Laws.EncodeRow.xor (x y : Reg) : Sys2Proof.Laws.EncodeRow.Statement (.xor x y) :=
  of_xy 12 0x8 0x3 x y rfl rfl rfl rfl
    (congrArg₂ Instr.xor (fields_encodeXYN 0x8 x y 0x3).2.1 (fields_encodeXYN 0x8 x y 0x3).2.2.1)

theorem Sys2Proof.Laws.EncodeRow.add (x y : Reg) : Sys2Proof.Laws.EncodeRow.Statement (.add x y) :=
  of_xy 13 0x8 0x4 x y rfl rfl rfl rfl
    (congrArg₂ Instr.add (fields_encodeXYN 0x8 x y 0x4).2.1 (fields_encodeXYN 0x8 x y 0x4).2.2.1)

theorem Sys2Proof.Laws.EncodeRow.sub (x y : Reg) : Sys2Proof.Laws.EncodeRow.Statement (.sub x y) :=
  of_xy 14 0x8 0x5 x y rfl rfl rfl rfl
    (congrArg₂ Instr.sub (fields_encodeXYN 0x8 x y 0x5).2.1 (fields_encodeXYN 0x8 x y 0x5).2.2.1)

theorem Sys2Proof.Laws.EncodeRow.shr (x y : Reg) : Sys2Proof.Laws.EncodeRow.Statement (.shr x y) :=
  of_xy 15 0x8 0x6 x y rfl rfl rfl rfl
    (congrArg₂ Instr.shr (fields_encodeXYN 0x8 x y 0x6).2.1 (fields_encodeXYN 0x8 x y 0x6).2.2.1)

theorem Sys2Proof.Laws.EncodeRow.subn (x y : Reg) : Sys2Proof.Laws.EncodeRow.Statement (.subn x y) :=
  of_xy 16 0x8 0x7 x y rfl rfl rfl rfl
    (congrArg₂ Instr.subn (fields_encodeXYN 0x8 x y 0x7).2.1 (fields_encodeXYN 0x8 x y 0x7).2.2.1)

theorem Sys2Proof.Laws.EncodeRow.shl (x y : Reg) : Sys2Proof.Laws.EncodeRow.Statement (.shl x y) :=
  of_xy 17 0x8 0xE x y rfl rfl rfl rfl
    (congrArg₂ Instr.shl (fields_encodeXYN 0x8 x y 0xE).2.1 (fields_encodeXYN 0x8 x y 0xE).2.2.1)

theorem Sys2Proof.Laws.EncodeRow.sneReg (x y : Reg) : Sys2Proof.Laws.EncodeRow.Statement (.sneReg x y) :=
  of_xy 18 0x9 0x0 x y rfl rfl rfl rfl
    (congrArg₂ Instr.sneReg (fields_encodeXYN 0x9 x y 0x0).2.1 (fields_encodeXYN 0x9 x y 0x0).2.2.1)

theorem Sys2Proof.Laws.EncodeRow.ldI (a : Addr12) : Sys2Proof.Laws.EncodeRow.Statement (.ldI a) :=
  of_op 19 0xA rfl rfl rfl (fields_encodeAddr 0xA a).1 (congrArg Instr.ldI (fields_encodeAddr 0xA a).2)

theorem Sys2Proof.Laws.EncodeRow.jpV0 (a : Addr12) : Sys2Proof.Laws.EncodeRow.Statement (.jpV0 a) :=
  of_op 20 0xB rfl rfl rfl (fields_encodeAddr 0xB a).1 (congrArg Instr.jpV0 (fields_encodeAddr 0xB a).2)

theorem Sys2Proof.Laws.EncodeRow.rnd (x : Reg) (nn : Byte) : Sys2Proof.Laws.EncodeRow.Statement (.rnd x nn) :=
  of_op 21 0xC rfl rfl rfl (fields_encodeXNN 0xC x nn).1
    (congrArg₂ Instr.rnd (fields_encodeXNN 0xC x nn).2.1 (fields_encodeXNN 0xC x nn).2.2)

theorem Sys2Proof.Laws.EncodeRow.drw (x y : Reg) (n : Nibble) : Sys2Proof.Laws.EncodeRow.Statement (.drw x y n) := by
  obtain ⟨ho, hx, hy, hn⟩ := fields_encodeXYN 0xD x y n
  refine of_op 22 0xD rfl rfl rfl ho ?_
  show Instr.drw (fieldX (encodeXYN 0xD x y n)) (fieldY (encodeXYN 0xD x y n)) (fieldN (encodeXYN 0xD x y n)) = _
  rw [hx, hy, hn]

theorem Sys2Proof.Laws.EncodeRow.skp (x : Reg) : Sys2Proof.Laws.EncodeRow.Statement (.skp x) :=
  of_xsub 23 0xE 0x9E x rfl rfl rfl rfl (congrArg Instr.skp (fields_encodeXNN 0xE x 0x9E).2.1)

theorem Sys2Proof.Laws.EncodeRow.sknp (x : Reg) : Sys2Proof.Laws.EncodeRow.Statement (.sknp x) :=
  of_xsub 24 0xE 0xA1 x rfl rfl rfl rfl (congrArg Instr.sknp (fields_encodeXNN 0xE x 0xA1).2.1)

theorem Sys2Proof.Laws.EncodeRow.ldVxDt (x : Reg) : Sys2Proof.Laws.EncodeRow.Statement (.ldVxDt x) :=
  of_xsub 25 0xF 0x07 x rfl rfl rfl rfl (congrArg Instr.ldVxDt (fields_encodeXNN 0xF x 0x07).2.1)

theorem Sys2Proof.Laws.EncodeRow.ldVxK (x : Reg) : Sys2Proof.Laws.EncodeRow.Statement (.ldVxK x) :=
  of_xsub 26 0xF 0x0A x rfl rfl rfl rfl (congrArg Instr.ldVxK (fields_encodeXNN 0xF x 0x0A).2.1)

theorem Sys2Proof.Laws.EncodeRow.ldDtVx (x : Reg) : Sys2Proof.Laws.EncodeRow.Statement (.ldDtVx x) :=
  of_xsub 27 0xF 0x15 x rfl rfl rfl rfl (congrArg Instr.ldDtVx (fields_encodeXNN 0xF x 0x15).2.1)

theorem Sys2Proof.Laws.EncodeRow.ldStVx (x : Reg) : Sys2Proof.Laws.EncodeRow.Statement (.ldStVx x) :=
  of_xsub 28 0xF 0x18 x rfl rfl rfl rfl (congrArg Instr.ldStVx (fields_encodeXNN 0xF x 0x18).2.1)

theorem Sys2Proof.Laws.EncodeRow.addIVx (x : Reg) : Sys2Proof.Laws.EncodeRow.Statement (.addIVx x) :=
  of_xsub 29 0xF 0x1E x rfl rfl rfl rfl (congrArg Instr.addIVx (fields_encodeXNN 0xF x 0x1E).2.1)

theorem Sys2Proof.Laws.EncodeRow.ldFVx (x : Reg) : Sys2Proof.Laws.EncodeRow.Statement (.ldFVx x) :=
  of_xsub 30 0xF 0x29 x rfl rfl rfl rfl (congrArg Instr.ldFVx (fields_encodeXNN 0xF x 0x29).2.1)

theorem Sys2Proof.Laws.EncodeRow.ldBVx (x : Reg) : Sys2Proof.Laws.EncodeRow.Statement (.ldBVx x) :=
  of_xsub 31 0xF 0x33 x rfl rfl rfl rfl (congrArg Instr.ldBVx (fields_encodeXNN 0xF x 0x33).2.1)

theorem Sys2Proof.Laws.EncodeRow.ldMemVx (x : Reg) : Sys2Proof.Laws.EncodeRow.Statement (.ldMemVx x) :=
  of_xsub 32 0xF 0x55 x rfl rfl rfl rfl (congrArg Instr.ldMemVx (fields_encodeXNN 0xF x 0x55).2.1)

theorem Sys2Proof.Laws.EncodeRow.ldVxMem (x : Reg) : Sys2Proof.Laws.EncodeRow.Statement (.ldVxMem x) :=
  of_xsub 33 0xF 0x65 x rfl rfl rfl rfl (congrArg Instr.ldVxMem (fields_encodeXNN 0xF x 0x65).2.1)
end

