-- ==== Sys2Proof/Laws/Step.lean ====
section
/-! SUPPORT. What a tick can do, said once (R154): the arms of a successful step, the ways a step fails, and the key-wait arms. -/

namespace Sys2Proof.Machine

theorem onNext_next {r : Result} {k : State → State} {t : State} (h : onNext r k = .next t) :
    ∃ u, r = .next u ∧ t = k u := by
  cases r with
  | next u => exact ⟨u, rfl, by cases h; rfl⟩
  | fault f => cases h
  | refused q => cases h

theorem onNext_fault {r : Result} {k : State → State} {f : Fault} : onNext r k = .fault f ↔ r = .fault f := by
  cases r <;> simp [onNext]

theorem onNext_refused {r : Result} {k : State → State} {q : Refusal} : onNext r k = .refused q ↔ r = .refused q := by
  cases r <;> simp [onNext]

/-- Fetch and decode read an instruction exactly when the fetched word is that instruction's. -/
theorem fetchDecode_ok {s : State} {i : Instr} :
    s.fetchDecode = .ok i ↔ ∃ w, fetch s s.pc.toNat = .ok w ∧ decode w = .ok i := by
  unfold State.fetchDecode
  cases hf : fetch s s.pc.toNat with
  | error f => simp
  | ok w =>
    simp only [Except.ok.injEq, exists_eq_left']
    cases hd : decode w <;> simp

/-- An instruction was fetched from two addresses in range. -/
theorem fetchDecode_range {s : State} {i : Instr} (h : s.fetchDecode = .ok i) : s.pc.toNat + 1 < Config.memSize := by
  obtain ⟨w, hw, -⟩ := fetchDecode_ok.mp h
  exact fetch_range hw

/-- Fetch and decode depend on `pc`, configuration and memory alone. -/
theorem fetchDecode_congr {s t : State} (hpc : t.pc = s.pc) (hb : ∀ a, t.readByte a = s.readByte a) :
    t.fetchDecode = s.fetchDecode := by
  unfold State.fetchDecode fetch memRead
  simp only [hpc, hb]

theorem step_running {s : State} (h : s.kw = .running) : step s = onNext s.runInstr State.endTick := by
  simp only [step, State.tickArm, h]

theorem step_of_fetchDecode {s : State} {i : Instr} (h : s.kw = .running) (hd : s.fetchDecode = .ok i) :
    step s = onNext (exec i s) State.endTick := by
  rw [step_running h, State.runInstr, hd]

theorem step_awaiting {s : State} {r : Reg} (h : s.kw = .awaitingKey r) :
    step s = .next (s.keyWaitAwaiting r).endTick := by
  simp only [step, State.tickArm, h, onNext]

theorem step_captured {s : State} {r : Reg} {k : Key} (h : s.kw = .captured r k) :
    step s = .next (s.keyWaitCaptured r k).endTick := by
  simp only [step, State.tickArm, h, onNext]

/-- All a successful tick can have done. -/
theorem step_next {s t : State} (h : step s = .next t) :
    (s.kw = .running ∧ ∃ i u, s.fetchDecode = .ok i ∧ exec i s = .next u ∧ t = u.endTick) ∨
    (∃ r, s.kw = .awaitingKey r ∧ t = (s.keyWaitAwaiting r).endTick) ∨
    (∃ r k, s.kw = .captured r k ∧ t = (s.keyWaitCaptured r k).endTick) := by
  cases hk : s.kw with
  | running =>
    refine .inl ⟨rfl, ?_⟩
    rw [step_running hk, State.runInstr] at h
    obtain ⟨u, hu, ht⟩ := onNext_next h
    cases hd : s.fetchDecode with
    | error f => rw [hd] at hu; cases hu
    | ok i => rw [hd] at hu; exact ⟨i, u, rfl, hu, ht⟩
  | awaitingKey r =>
    rw [step_awaiting hk] at h
    cases h
    exact .inr (.inl ⟨r, rfl, rfl⟩)
  | captured r k =>
    rw [step_captured hk] at h
    cases h
    exact .inr (.inr ⟨r, k, rfl, rfl⟩)

/-- All the ways a tick can fail: only a running tick does (R155, R156, R177). -/
theorem step_fault {s : State} {f : Fault} (h : step s = .fault f) :
    s.kw = .running ∧ (s.fetchDecode = .error f ∨ ∃ i, s.fetchDecode = .ok i ∧ exec i s = .fault f) := by
  cases hk : s.kw with
  | running =>
    refine ⟨rfl, ?_⟩
    rw [step_running hk, onNext_fault, State.runInstr] at h
    cases hd : s.fetchDecode with
    | error g => rw [hd] at h; cases h; exact .inl rfl
    | ok i => rw [hd] at h; exact .inr ⟨i, rfl, h⟩
  | awaitingKey r => rw [step_awaiting hk] at h; cases h
  | captured r k => rw [step_captured hk] at h; cases h

/-- A failing fetch fails the tick (R177). -/
theorem fetchDecode_of_fetch_error {s : State} {f : Fault} (h : fetch s s.pc.toNat = .error f) :
    s.fetchDecode = .error f := by
  simp only [State.fetchDecode, h]

/-- An illegal word fails the tick (R172). -/
theorem fetchDecode_of_illegal {s : State} {w : Word} {e : DecodeError} (h : fetch s s.pc.toNat = .ok w)
    (hd : decode w = .error e) : s.fetchDecode = .error (.decodeFailure w) := by
  simp only [State.fetchDecode, h, hd]

theorem step_of_fetchDecode_error {s : State} {f : Fault} (h : s.kw = .running) (hd : s.fetchDecode = .error f) :
    step s = .fault f := by
  rw [step_running h, State.runInstr, hd]
  rfl

/-! ### The key wait -/

theorem commitKey_keeps (s : State) (r : Reg) (k : Key) :
    KeepsAllBut (fun p => p = .reg r ∨ p = .pc ∨ p = .keyWait) s (s.commitKey r k) :=
  ((s.writeV_keeps r _).trans (State.advance_keeps _) (R := fun p => p = .reg r ∨ p = .pc)
    (fun _ h => .inl h) (fun _ h => .inr h)).trans (State.setKw_keeps _ _)
    (fun _ h => h.elim .inl (fun h => .inr (.inl h))) (fun _ h => .inr (.inr h))

/-- All the awaiting arm can do (R155). -/
theorem keyWaitAwaiting_cases (s : State) (r : Reg) :
    (s.leastKeyDown = none ∧ s.keyWaitAwaiting r = s) ∨
    (∃ k, s.leastKeyDown = some k ∧ s.cfg.keyConfirm = .anyDown ∧ s.keyWaitAwaiting r = s.commitKey r k) ∨
    (∃ k, s.leastKeyDown = some k ∧ s.cfg.keyConfirm = .pressThenRelease ∧
      s.keyWaitAwaiting r = s.setKw (.captured r k)) := by
  unfold State.keyWaitAwaiting
  cases s.leastKeyDown with
  | none => exact .inl ⟨rfl, rfl⟩
  | some k =>
    cases s.cfg.keyConfirm with
    | anyDown => exact .inr (.inl ⟨k, rfl, rfl, rfl⟩)
    | pressThenRelease => exact .inr (.inr ⟨k, rfl, rfl, rfl⟩)

/-- All the captured arm can do (R156). -/
theorem keyWaitCaptured_cases (s : State) (r : Reg) (k : Key) :
    (s.keyDown k = true ∧ s.keyWaitCaptured r k = s) ∨
    (s.keyDown k = false ∧ s.keyWaitCaptured r k = s.commitKey r k) := by
  unfold State.keyWaitCaptured
  cases s.keyDown k with
  | true => exact .inl ⟨rfl, rfl⟩
  | false => exact .inr ⟨rfl, rfl⟩

/-- The awaiting arm writes nothing but register, `pc` and `kw` (R155). -/
theorem keyWaitAwaiting_keeps (s : State) (r : Reg) :
    KeepsAllBut (fun p => p = .reg r ∨ p = .pc ∨ p = .keyWait) s (s.keyWaitAwaiting r) := by
  rcases keyWaitAwaiting_cases s r with ⟨-, h⟩ | ⟨k, -, -, h⟩ | ⟨k, -, -, h⟩ <;> rw [h]
  · exact KeepsAllBut.refl _ s
  · exact commitKey_keeps s r k
  · exact (s.setKw_keeps _).mono fun _ h => .inr (.inr h)

/-- The captured arm writes nothing but register, `pc` and `kw` (R156). -/
theorem keyWaitCaptured_keeps (s : State) (r : Reg) (k : Key) :
    KeepsAllBut (fun p => p = .reg r ∨ p = .pc ∨ p = .keyWait) s (s.keyWaitCaptured r k) := by
  rcases keyWaitCaptured_cases s r k with ⟨-, h⟩ | ⟨-, h⟩ <;> rw [h]
  · exact KeepsAllBut.refl _ s
  · exact commitKey_keeps s r k

@[simp] theorem commitKey_readV (s : State) (r : Reg) (k : Key) : (s.commitKey r k).readV r = BitVec.ofNat 8 k.val :=
  s.readV_writeV_self r _

/-- In the ascending list of keys, a smaller key stands before a larger one. -/
theorem mem_before_of_lt {as bs : List Key} {j k : Key} (heq : List.finRange 16 = as ++ k :: bs) (h : j < k) : j ∈ as := by
  have hj : j ∈ List.finRange 16 := List.mem_finRange j
  have hs : (List.finRange 16).Pairwise (· < ·) := List.pairwise_lt_finRange 16
  rw [heq] at hj hs
  rcases List.mem_append.mp hj with h' | h'
  · exact h'
  · rcases List.mem_cons.mp h' with rfl | h'
    · exact absurd h (lt_irrefl _)
    · exact absurd h (lt_asymm ((List.pairwise_cons.mp (List.pairwise_append.mp hs).2.1).1 j h'))

/-- The key found is down, and none below it is (R155). -/
theorem leastKeyDown_some {s : State} {k : Key} :
    s.leastKeyDown = some k ↔ s.keyDown k = true ∧ ∀ j, j < k → s.keyDown j = false := by
  unfold State.leastKeyDown
  constructor
  · intro h
    refine ⟨List.find?_some h, fun j hj => ?_⟩
    obtain ⟨-, as, bs, heq, hall⟩ := List.find?_eq_some_iff_append.mp h
    simpa using hall j (mem_before_of_lt heq hj)
  · rintro ⟨hk, hall⟩
    cases hf : (List.finRange 16).find? (fun k => s.keyDown k) with
    | none => exact absurd hk (List.find?_eq_none.mp hf k (List.mem_finRange k))
    | some j =>
      have hj := List.find?_some hf
      rcases lt_trichotomy j k with h | h | h
      · rw [hall j h] at hj; cases hj
      · rw [h]
      · obtain ⟨-, as, bs, heq, hno⟩ := List.find?_eq_some_iff_append.mp hf
        have := hno k (mem_before_of_lt heq h)
        rw [hk] at this
        cases this

theorem leastKeyDown_none {s : State} : s.leastKeyDown = none ↔ ∀ k, s.keyDown k = false := by
  unfold State.leastKeyDown
  rw [List.find?_eq_none]
  exact ⟨fun h k => by simpa using h k (List.mem_finRange k), fun h k _ => by simp [h k]⟩

end Sys2Proof.Machine
end

