-- ==== Sys2Proof/Tests/Slice0.lean ====
section
/-! SUPPORT. Tests: words written out from R66 and what they decode to; ill-formed configurations refused; one or two vectors of
95_test_vectors.md per instruction, one step each; and for each statement with hypotheses a witness that meets them. -/

namespace Sys2Proof.Tests

open Sys2Proof.Machine

/-! ### Configurations and states the tests use -/

/-- The defaults of R5, with the illustrative random numbers of 95_test_vectors.md and the font table of vector T84. -/
def demoConfig : Config where
  stackCapacity := 32
  programOrigin := 0x200
  fontBase := 0
  glyphSize := 5
  fontTable := (List.range 80).map (BitVec.ofNat 8)
  displayWidth := 64
  displayHeight := 32
  rngSeed := 0x2A
  rngMul := 5
  rngInc := 3
  drawEdge := .clip
  indexAutoincrement := false
  keyConfirm := .pressThenRelease

/-- No key down. -/
def noKey : Keypad := Vector.replicate 16 false

/-- One key down. -/
def oneKey (k : Key) : Keypad := noKey.set k.val true

/-- The reset state with one snapshot laid out, no key down. -/
def demo : State := (State.resetWith demoConfig).supply noKey

/-- `demo` with registers set. -/
def withRegs (vs : List (Reg × Byte)) : State := vs.foldl (fun s p => s.writeV p.1 p.2) demo

/-- The state after one step that fetches the word given. -/
def after (s : State) (w : Nat) : Option State :=
  match step (s.withFetchWord 16 w) with
  | .next t => some t
  | _ => none

/-- The failure of one step that fetches the word given. -/
def failure (s : State) (w : Nat) : Option Fault :=
  match step (s.withFetchWord 16 w) with
  | .fault f => some f
  | _ => none

/-! ### Decoding: words written out bit by bit, `op x y n`, from R61, R62 and R66 -/

theorem test_decode_cls : decode 0b0000_0000_1110_0000 = .ok .cls := by decide
theorem test_decode_ret : decode 0b0000_0000_1110_1110 = .ok .ret := by decide
theorem test_decode_jp : decode 0b0001_1010_1011_1100 = .ok (.jp 0xABC) := by decide
theorem test_decode_call : decode 0b0010_1010_1011_1100 = .ok (.call 0xABC) := by decide
theorem test_decode_se_imm : decode 0b0011_1010_0111_1111 = .ok (.seImm 10 0x7F) := by decide
theorem test_decode_sne_imm : decode 0b0100_1010_0111_1111 = .ok (.sneImm 10 0x7F) := by decide
theorem test_decode_se_reg : decode 0b0101_1010_1011_0000 = .ok (.seReg 10 11) := by decide
theorem test_decode_ld_imm : decode 0b0110_1010_0111_1111 = .ok (.ldImm 10 0x7F) := by decide
theorem test_decode_add_imm : decode 0b0111_1010_0111_1111 = .ok (.addImm 10 0x7F) := by decide
theorem test_decode_ld : decode 0b1000_1010_1011_0000 = .ok (.ld 10 11) := by decide
theorem test_decode_or : decode 0b1000_1010_1011_0001 = .ok (.or 10 11) := by decide
theorem test_decode_and : decode 0b1000_1010_1011_0010 = .ok (.and 10 11) := by decide
theorem test_decode_xor : decode 0b1000_1010_1011_0011 = .ok (.xor 10 11) := by decide
theorem test_decode_add : decode 0b1000_1010_1011_0100 = .ok (.add 10 11) := by decide
theorem test_decode_sub : decode 0b1000_1010_1011_0101 = .ok (.sub 10 11) := by decide
theorem test_decode_shr : decode 0b1000_1010_1011_0110 = .ok (.shr 10 11) := by decide
theorem test_decode_subn : decode 0b1000_1010_1011_0111 = .ok (.subn 10 11) := by decide
theorem test_decode_shl : decode 0b1000_1010_1011_1110 = .ok (.shl 10 11) := by decide
theorem test_decode_sne_reg : decode 0b1001_1010_1011_0000 = .ok (.sneReg 10 11) := by decide
theorem test_decode_ld_i : decode 0b1010_1010_1011_1100 = .ok (.ldI 0xABC) := by decide
theorem test_decode_jp_v0 : decode 0b1011_1010_1011_1100 = .ok (.jpV0 0xABC) := by decide
theorem test_decode_rnd : decode 0b1100_1010_0111_1111 = .ok (.rnd 10 0x7F) := by decide
theorem test_decode_drw : decode 0b1101_1010_1011_0101 = .ok (.drw 10 11 5) := by decide
theorem test_decode_skp : decode 0b1110_1010_1001_1110 = .ok (.skp 10) := by decide
theorem test_decode_sknp : decode 0b1110_1010_1010_0001 = .ok (.sknp 10) := by decide
theorem test_decode_ld_vx_dt : decode 0b1111_1010_0000_0111 = .ok (.ldVxDt 10) := by decide
theorem test_decode_ld_vx_k : decode 0b1111_1010_0000_1010 = .ok (.ldVxK 10) := by decide
theorem test_decode_ld_dt_vx : decode 0b1111_1010_0001_0101 = .ok (.ldDtVx 10) := by decide
theorem test_decode_ld_st_vx : decode 0b1111_1010_0001_1000 = .ok (.ldStVx 10) := by decide
theorem test_decode_add_i_vx : decode 0b1111_1010_0001_1110 = .ok (.addIVx 10) := by decide
theorem test_decode_ld_f_vx : decode 0b1111_1010_0010_1001 = .ok (.ldFVx 10) := by decide
theorem test_decode_ld_b_vx : decode 0b1111_1010_0011_0011 = .ok (.ldBVx 10) := by decide
theorem test_decode_ld_mem_vx : decode 0b1111_1010_0101_0101 = .ok (.ldMemVx 10) := by decide
theorem test_decode_ld_vx_mem : decode 0b1111_1010_0110_0101 = .ok (.ldVxMem 10) := by decide

/-- Vectors T3, T4, T8, one word of each class. -/
theorem test_decode_illegal_system :
    decode 0x0000 = .error (.illegalWord 0x0000) ∧ decode 0x00E1 = .error (.illegalWord 0x00E1) ∧
    decode 0x0123 = .error (.illegalWord 0x0123) ∧ decode 0x5AB1 = .error (.illegalWord 0x5AB1) ∧
    decode 0x9AB8 = .error (.illegalWord 0x9AB8) := by
  decide

/-- Vectors T10, T12. -/
theorem test_decode_illegal_alu :
    decode 0x8AB8 = .error (.illegalWord 0x8AB8) ∧ decode 0x8ABD = .error (.illegalWord 0x8ABD) ∧
    decode 0x8ABF = .error (.illegalWord 0x8ABF) ∧ decode 0xEA9F = .error (.illegalWord 0xEA9F) ∧
    decode 0xEAA0 = .error (.illegalWord 0xEAA0) := by
  decide

/-- Vector T14. -/
theorem test_decode_illegal_misc :
    decode 0xFA00 = .error (.illegalWord 0xFA00) ∧ decode 0xFA08 = .error (.illegalWord 0xFA08) ∧
    decode 0xFA30 = .error (.illegalWord 0xFA30) ∧ decode 0xFA75 = .error (.illegalWord 0xFA75) ∧
    decode 0xFA85 = .error (.illegalWord 0xFA85) := by
  decide

/-- R60: two bytes, the first one high; fewer are refused. -/
theorem test_decode_bytes : decodeBytes [0x8A, 0xB7, 0x12] = .ok (.subn 10 11, [0x12]) ∧
    decodeBytes [0x8A] = .error .truncated ∧ decodeTableWord 16 0x8AB7 = some (.subn 10 11) ∧
    decodeTableWord 16 0x8AB8 = none := by decide

/-- R47: an instruction's bytes as they stand in memory. -/
theorem test_encode_bytes : encodeBytes (.drw 10 11 5) = [0xDA, 0xB5] := by decide

/-! ### Well-formedness: R5's constraints, one ill-formed configuration for each check, and R192's -/

theorem test_wf_demo : demoConfig.wf = true := by decide
theorem test_wf_refuses_small_stack : ({ demoConfig with stackCapacity := 15 } : Config).wf = false := by decide
theorem test_wf_refuses_font_over_origin : ({ demoConfig with fontBase := 433 } : Config).wf = false := by decide
theorem test_wf_refuses_origin_outside : ({ demoConfig with programOrigin := 4097 } : Config).wf = false := by decide
theorem test_wf_refuses_short_font : ({ demoConfig with fontTable := [0xF0] } : Config).wf = false := by decide
theorem test_wf_refuses_narrow : ({ demoConfig with displayWidth := 7 } : Config).wf = false := by decide
theorem test_wf_refuses_low : ({ demoConfig with displayHeight := 14 } : Config).wf = false := by decide
theorem test_boot_refuses_ill_formed :
    boot { demoConfig with displayWidth := 7 } [] = .refused .badConfiguration := rfl

/-- Vector T83: one byte too many. -/
theorem test_load_too_large : load demo (List.replicate 3585 0xFF) = .fault .programTooLarge := by
  have h : demoConfig.imageFits (List.replicate 3585 0xFF) = false := by
    rw [Config.imageFits, List.length_replicate]; decide
  simp only [load, show demo.cfg = demoConfig from rfl, h]
  rfl

/-- Vector T82. -/
theorem test_load_two_bytes : (match load demo [0x12, 0x00] with
    | .next t => some (t.readByte 0x200, t.readByte 0x201, t.readByte 0x202, t.loaded)
    | _ => none) = some (0x12, 0x00, 0x00, true) := by decide

/-- D27: a second load has no meaning. -/
theorem test_load_twice : load { demo with loaded := true } [0x12, 0x00] = .refused .loadOutsideBoot := rfl

/-! ### One step: system and control flow (T15 to T22b) -/

theorem test_cls_clears_pixel_keeps_flag :
    (after ((withRegs [(15, 1)]).setFb (flipPixel demo.fb 7 5)) 0x00E0).map (fun t => (pixel t.fb 7 5, t.readV 15, t.pc)) =
      some (false, 1, 0x202) := by decide

theorem test_ret_pops : (after { demo with sp := 1, stack := demo.stack.set 0 0x206, pc := 0x210 } 0x00EE).map
    (fun t => (t.sp, t.pc, t.stack[0]?)) = some (0, 0x206, some 0x206) := by decide

theorem test_ret_underflow : failure demo 0x00EE = some .stackUnderflow := by decide

theorem test_jp_odd_target : (after demo 0x1201).map (fun t => t.pc) = some 0x201 := by decide

theorem test_call_pushes : (after { demo with pc := 0x204 } 0x220C).map (fun t => (t.stack[0]?, t.sp, t.pc)) =
    some (some 0x206, 1, 0x20C) := by decide

theorem test_call_overflow : failure { demo with sp := 32 } 0x2200 = some .stackOverflow := by decide

theorem test_jp_v0_past_memory : (after (withRegs [(0, 0xFF)]) 0xBFFF).map (fun t => t.pc) = some 0x10FE := by decide

/-! ### Skips (T23 to T29) -/

theorem test_se_imm : ((after (withRegs [(3, 0x2A)]) 0x332A).map (fun t => t.pc), (after (withRegs [(3, 0x2A)]) 0x332B).map
    (fun t => t.pc)) = (some 0x204, some 0x202) := by decide

theorem test_sne_imm : ((after (withRegs [(3, 0x2A)]) 0x432A).map (fun t => t.pc), (after (withRegs [(3, 0x2A)]) 0x432B).map
    (fun t => t.pc)) = (some 0x202, some 0x204) := by decide

theorem test_se_reg : ((after (withRegs [(1, 7), (2, 7)]) 0x5120).map (fun t => t.pc),
    (after (withRegs [(1, 7), (2, 8)]) 0x5120).map (fun t => t.pc)) = (some 0x204, some 0x202) := by decide

theorem test_sne_reg : ((after (withRegs [(1, 7), (2, 7)]) 0x9120).map (fun t => t.pc),
    (after (withRegs [(1, 7), (2, 8)]) 0x9120).map (fun t => t.pc)) = (some 0x202, some 0x204) := by decide

theorem test_skp_low_nibble : ((after ((withRegs [(2, 0x1A)]).supply (oneKey 0xA)) 0xE29E).map (fun t => t.pc),
    (after (withRegs [(2, 5)]) 0xE29E).map (fun t => t.pc)) = (some 0x204, some 0x202) := by decide

theorem test_sknp : ((after ((withRegs [(2, 5)]).supply (oneKey 5)) 0xE2A1).map (fun t => t.pc),
    (after (withRegs [(2, 5)]) 0xE2A1).map (fun t => t.pc)) = (some 0x202, some 0x204) := by decide

/-! ### Load and ALU (T30 to T41e) -/

theorem test_ld_imm_flag_register : (after demo 0x6F07).map (fun t => (t.readV 15, t.pc)) = some (7, 0x202) := by decide

theorem test_add_imm_wraps_no_flag : (after (withRegs [(0, 0xFF)]) 0x7002).map (fun t => (t.readV 0, t.readV 15)) =
    some (1, 0) := by decide

theorem test_ld_copies : (after (withRegs [(2, 9)]) 0x8120).map (fun t => (t.readV 1, t.readV 2)) = some (9, 9) := by decide

theorem test_or_keeps_flag : (after (withRegs [(1, 0x0F), (2, 0xF0), (15, 1)]) 0x8121).map
    (fun t => (t.readV 1, t.readV 15)) = some (0xFF, 1) := by decide

theorem test_and : (after (withRegs [(1, 0x3C), (2, 0x0F)]) 0x8122).map (fun t => t.readV 1) = some 0x0C := by decide

theorem test_xor : (after (withRegs [(1, 0xFF), (2, 0x0F)]) 0x8123).map (fun t => t.readV 1) = some 0xF0 := by decide

/-- The source's example S1. -/
theorem test_add_carry : (after (withRegs [(0, 0xFA), (1, 0x0A)]) 0x8014).map (fun t => (t.readV 0, t.readV 15, t.pc)) =
    some (4, 1, 0x202) := by decide

theorem test_add_flag_destination : (after (withRegs [(1, 0xFF), (15, 2)]) 0x8F14).map (fun t => (t.readV 1, t.readV 15)) =
    some (0xFF, 1) := by decide

/-- The source's example S3. -/
theorem test_sub_borrow : (after (withRegs [(0, 5), (1, 10)]) 0x8015).map (fun t => (t.readV 0, t.readV 15)) =
    some (0xFB, 0) := by decide

theorem test_sub_flag_operand : (after (withRegs [(1, 5), (15, 1)]) 0x81F5).map (fun t => (t.readV 1, t.readV 15)) =
    some (4, 1) := by decide

theorem test_shr_ignores_y : (after (withRegs [(3, 5), (4, 0xF0)]) 0x8346).map
    (fun t => (t.readV 3, t.readV 4, t.readV 15)) = some (2, 0xF0, 1) := by decide

theorem test_shr_flag_destination : (after (withRegs [(15, 3)]) 0x8F06).map (fun t => t.readV 15) = some 1 := by decide

theorem test_subn : (after (withRegs [(0, 5), (1, 10)]) 0x8017).map (fun t => (t.readV 0, t.readV 15)) = some (5, 1) := by
  decide

theorem test_subn_borrow : (after (withRegs [(0, 10), (1, 5)]) 0x8017).map (fun t => (t.readV 0, t.readV 15)) =
    some (0xFB, 0) := by decide

theorem test_shl : (after (withRegs [(3, 0x81)]) 0x830E).map (fun t => (t.readV 3, t.readV 15)) = some (2, 1) := by decide

/-! ### Index, random, draw (T42 to T50) -/

theorem test_ld_i : (after demo 0xA2F0).map (fun t => (t.index, t.pc)) = some (0x02F0, 0x202) := by decide

theorem test_rnd_first : (after demo 0xC0FF).map (fun t => (t.readV 0, t.rng)) = some (0xD5, 0xD5) := by decide

theorem test_rnd_mask : (after (demo.setRng 0xD5) 0xC10F).map (fun t => (t.readV 1, t.rng)) = some (0x0C, 0x2C) := by decide

/-- Vector T42, policy `clip`: columns 62 and 63 of row 31, nothing brought back to column 0. -/
theorem test_drw_clips : (after (((withRegs [(0, 62), (1, 31)]).setIndex 0x300).writeBytes 0x300 [0xF0]) 0xD011).map
    (fun t => (pixel t.fb 62 31, pixel t.fb 63 31, pixel t.fb 0 31, t.readV 15)) = some (true, true, false, 0) := by decide

/-- Vector T49: a lit pixel turned off is a collision. -/
theorem test_drw_collides :
    (after (((demo.setFb (flipPixel demo.fb 0 0)).setIndex 0x300).writeBytes 0x300 [0xC0]) 0xD011).map
      (fun t => (pixel t.fb 0 0, pixel t.fb 1 0, t.readV 15)) = some (false, true, 1) := by decide

/-! ### Keys, timers, miscellaneous (T52 to T59f) -/

theorem test_ld_vx_dt : (after (demo.setDt 7) 0xF307).map (fun t => (t.readV 3, t.dt)) = some (7, 6) := by decide

theorem test_ld_dt_vx : (after (withRegs [(3, 60)]) 0xF315).map (fun t => t.dt) = some 59 := by decide

theorem test_ld_st_vx : (after (withRegs [(3, 2)]) 0xF318).map (fun t => (t.st, t.beep)) = some (1, true) := by decide

/-- Vector T54b: the host never sees the beep. -/
theorem test_ld_st_vx_one : (after (withRegs [(3, 1)]) 0xF318).map (fun t => (t.st, t.beep)) = some (0, false) := by decide

/-- Row 1 of vector T60. -/
theorem test_ld_vx_k_waits : (after demo 0xF50A).map (fun t => (t.kw, t.pc)) = some (.awaitingKey 5, 0x200) := by decide

/-- Row 3 of vector T60: keys 3 and 7 down; the lowest is captured, or committed under `any_down`. -/
theorem test_wait_takes_lowest_key :
    ((demo.setKw (.awaitingKey 5)).supply ((oneKey 7).set 3 true)).keyWaitAwaiting 5 =
      ((demo.setKw (.captured 5 3)).supply ((oneKey 7).set 3 true)) := by decide

/-- Row 6 of vector T60: key 3 is up, key 9 does not matter. -/
theorem test_wait_commits : (match step ((demo.setKw (.captured 5 3)).supply (oneKey 9)) with
    | .next t => some (t.kw, t.readV 5, t.pc)
    | _ => none) = some (.running, 3, 0x202) := by decide

theorem test_add_i_wraps : (after ((withRegs [(1, 1)]).setIndex 0xFFFF) 0xF11E).map (fun t => (t.index, t.readV 15)) =
    some (0, 0) := by decide

theorem test_ld_f : (after (withRegs [(4, 0x1A)]) 0xF429).map (fun t => t.index) = some 0x32 := by decide

theorem test_ld_b : (after ((withRegs [(0, 234)]).setIndex 0x300) 0xF033).map
    (fun t => (t.readBytes 0x300 3, t.index)) = some ([2, 3, 4], 0x300) := by decide

theorem test_ld_b_out_of_bounds : failure (demo.setIndex 0xFFE) 0xF033 = some (.outOfBoundsMemoryAccess 4096) := by decide

theorem test_ld_mem_vx : (after ((withRegs [(0, 0x11), (1, 0x22), (2, 0x33), (3, 0x44)]).setIndex 0x400) 0xF255).map
    (fun t => (t.readBytes 0x400 4, t.index)) = some ([0x11, 0x22, 0x33, 0], 0x400) := by decide

theorem test_ld_mem_vx_auto : (after { (withRegs [(0, 0xAA), (1, 0xBB)]).setIndex 0xFFE with
    cfg := { demoConfig with indexAutoincrement := true } } 0xF155).map (fun t => (t.readBytes 0xFFE 2, t.index)) =
    some ([0xAA, 0xBB], 0x1000) := by decide

theorem test_ld_vx_mem : (after (((withRegs [(3, 9)]).setIndex 0x300).writeBytes 0x300 [2, 3, 4]) 0xF265).map
    (fun t => (t.readV 0, t.readV 2, t.readV 3, t.index)) = some (2, 4, 9, 0x300) := by decide

theorem test_ld_vx_mem_out_of_bounds : failure (demo.setIndex 0x10FE) 0xF065 = some (.outOfBoundsMemoryAccess 0x10FE) := by
  decide

/-! ### Failures and reset (T70 to T84) -/

theorem test_fetch_last_byte : step { demo with pc := 0xFFF } = .fault (.outOfBoundsMemoryAccess 4096) := rfl

theorem test_illegal_word_fails : failure demo 0x5011 = some (.decodeFailure 0x5011) := by decide

theorem test_reset_font : ((State.resetWith demoConfig).readByte 79, (State.resetWith demoConfig).readByte 80) = (79, 0) := by
  decide

/-- The very first instruction after reset, in the hardware's configuration: the OPEN parameters do not stand in its way. -/
theorem test_reset_runs_placed_word : (match step (State.reset.withFetchWord 16 0x6A42) with
    | .next t => some (t.readV 10, t.pc)
    | _ => none) = some (0x42, 0x202) := by decide

/-! ### Witnesses: for each statement with hypotheses, a state and operands that meet them -/

/-- `demo` with an instruction's word at `pc`. -/
def ready (w : Nat) : State := demo.withFetchWord 16 w

theorem demo_pixels_off (x y : Nat) : pixel demo.fb x y = false := by
  show pixel (List.replicate 32 (List.replicate 64 false)) x y = false
  rw [pixel, List.getD_eq_getElem?_getD, List.getD_eq_getElem?_getD (a := []), List.getElem?_replicate]
  split
  · rw [Option.getD_some, List.getElem?_replicate]
    split <;> rfl
  · rfl

theorem demo_inv : demo.Inv where
  cfg_wf := by decide
  mem_wf := ⟨List.Pairwise.nil, fun _ h => (nomatch h)⟩
  stack_size := List.length_replicate
  sp_le := by decide
  slots_le := fun w hw => by rw [List.eq_of_mem_replicate hw]; decide
  fb_height := List.length_replicate
  fb_width := fun row hr => by rw [List.eq_of_mem_replicate hr]; exact List.length_replicate
  pc_le := by decide
  wait_pc := fun h => absurd rfl h

/-- A state about to draw the sprite byte 0x4F, which stands at address 79, at column 62 of the bottom row. -/
def drawState (fb : Framebuffer) : State := (((demo.writeV 0 62).writeV 1 31).setIndex 79).setFb fb

theorem drawState_inv {fb : Framebuffer} (h : fb.map List.length = demo.fb.map List.length) : (drawState fb).Inv where
  cfg_wf := demo_inv.cfg_wf
  mem_wf := demo_inv.mem_wf
  stack_size := demo_inv.stack_size
  sp_le := demo_inv.sp_le
  slots_le := demo_inv.slots_le
  fb_height := by
    have := congrArg List.length h
    rw [List.length_map, List.length_map] at this
    exact this.trans demo_inv.fb_height
  fb_width := fun row hr => by
    have hm : row.length ∈ demo.fb.map List.length := h ▸ List.mem_map_of_mem hr
    obtain ⟨r, hr', he⟩ := List.mem_map.mp hm
    rw [← he]
    exact demo_inv.fb_width r hr'
  pc_le := demo_inv.pc_le
  wait_pc := demo_inv.wait_pc

/-- The sprite's one pixel on the screen. -/
theorem drawState_covers (fb : Framebuffer) :
    SpriteCovers (drawState fb).cfg (fun r => (drawState fb).readByte ((drawState fb).index.toNat + r)) 62 31 (1#4).toNat 63 31 :=
  ⟨0, by decide, 1, by decide, (by decide : (demo.readByte 79).getLsbD 6 = true), rfl, rfl, (by decide : 63 < 64), (by decide : 31 < 32)⟩

theorem witness_decodeInvertsEncode : decode 0x8AB7 = .ok (.subn 10 11) := by decide

theorem witness_illegalWordsAreTheListedOnes : decode 0x8AB8 = .error (.illegalWord 0x8AB8) := by decide

/-- The last fetchable address, holding an illegal word. -/
theorem witness_illegalWordFailsTheTick : decode 0x0000 = .error (.illegalWord 0x0000) ∧
    ({ demo with pc := 0xFFE } : State).kw = .running ∧ ({ demo with pc := 0xFFE } : State).pc.toNat + 1 = 4095 ∧
    (0x0000#16).toNat = 256 * (({ demo with pc := 0xFFE } : State).readByte 0xFFE).toNat +
      (({ demo with pc := 0xFFE } : State).readByte 0xFFF).toNat := by decide

theorem witness_returnPopsNewestAddress_empty : demo.sp = 0 := rfl

theorem witness_returnPopsNewestAddress_full : 0 < ({ demo with sp := 32 } : State).sp ∧
    ({ demo with sp := 32 } : State).stack[32 - 1]? = some 0 := by decide

/-- For the bound on the popped address: a slot that holds 4096. -/
theorem witness_returnPopsNewestAddress_edge : ∃ t, exec .ret { demo with sp := 1, stack := demo.stack.set 0 4096 } = .next t ∧
    4095 ≤ t.pc.toNat ∧ t.pc.toNat ≤ 4096 := ⟨_, rfl, by decide⟩

/-- For `JumpGoesToAddress` and `OffsetJumpAddsV0`: the addresses at which the next fetch fails. -/
theorem witness_jumps_edge : (0xFFF#12).toNat = 0xFFF ∧ ∃ t, exec (.jpV0 0xFFF) demo = .next t ∧ 4095 ≤ t.pc.toNat :=
  ⟨rfl, _, rfl, by decide⟩

theorem witness_callPushesReturnAddress_full : ({ demo with sp := 32 } : State).sp = demo.cfg.stackCapacity := rfl

theorem witness_callPushesReturnAddress_last_slot : ({ demo with sp := 31 } : State).sp < demo.cfg.stackCapacity ∧
    ({ demo with sp := 31 } : State).stack.length = demo.cfg.stackCapacity := by decide

theorem witness_returnComesBackBehindCall : ∃ s t u : State, s.stack.length = s.cfg.stackCapacity ∧
    exec (.call 0x20C) s = .next t ∧ u.stack = t.stack ∧ u.sp = t.sp ∧ u ≠ t :=
  ⟨demo, _, ((demo.push 0x202).setPc 0x20C).setDt 9, rfl, rfl, rfl, rfl, by decide⟩

/-- Key 15 through a register whose high bits are set. -/
theorem witness_keySkipsTestLowNibbleKey : (15 : Key).val = ((withRegs [(2, 0xFF)]).readV 2).toNat % 16 := by decide

/-- A skip that matches at the last fetchable even address. -/
theorem witness_skipsWriteOnlyThePc : isSkip (.seImm 0 0) = true ∧ ({ demo with pc := 4092 } : State).pc = 4092 ∧
    ∃ t, exec (.seImm 0 0) { demo with pc := 4092 } = .next t ∧ t.pc = ({ demo with pc := 4092 } : State).pc + 4 :=
  ⟨rfl, rfl, _, rfl, by decide⟩

/-- For `AddSetsCarry`, `SubtractionsSetNotBorrow` and `ShiftsMoveOneBitOut`. -/
theorem witness_addition_subtractions_and_shifts : (0 : Reg) ≠ 15 := by decide

theorem witness_flagWritersAreTheClosedList : (∃ t, exec (.add 0 1) demo = .next t ∧ writesFlag (.add 0 1) = true) ∧
    ∃ t, exec (.ldImm 15 7) demo = .next t ∧ writesFlag (.ldImm 15 7) = false ∧ t.readV 15 ≠ demo.readV 15 :=
  ⟨⟨_, rfl, rfl⟩, _, rfl, rfl, by decide⟩

theorem witness_indexRegisterWrites : demo.cfg.wf = true := by decide

/-- A draw whose last row is past memory, one whose last row is memory's last byte, and one of no rows. -/
theorem witness_drawXorsTheSprite_ranges :
    (0 < (2#4).toNat ∧ 4095 < (demo.setIndex 0xFFF).index.toNat + (2#4).toNat - 1) ∧
    (demo.setIndex 0xFFE).index.toNat + (2#4).toNat - 1 = 4095 ∧ (0#4).toNat = 0 := by decide

/-- A clear screen: the bottom right pixel is covered, the pixel left of it is not, and nothing collides. -/
theorem witness_drawXorsTheSprite_clear : ∃ s : State, s.Inv ∧ 62 = (s.readV 0).toNat % s.cfg.displayWidth ∧
    31 = (s.readV 1).toNat % s.cfg.displayHeight ∧ s.index.toNat + (1#4).toNat - 1 ≤ 4095 ∧
    SpriteCovers s.cfg (fun r => s.readByte (s.index.toNat + r)) 62 31 (1#4).toNat 63 31 ∧
    ¬ SpriteCovers s.cfg (fun r => s.readByte (s.index.toNat + r)) 62 31 (1#4).toNat 62 31 ∧
    ¬ ∃ px py, SpriteCovers s.cfg (fun r => s.readByte (s.index.toNat + r)) 62 31 (1#4).toNat px py ∧
      pixel s.fb px py = true := by
  refine ⟨drawState demo.fb, drawState_inv rfl, by decide, by decide, by decide, drawState_covers _, ?_, ?_⟩
  · rintro ⟨r, hr, col, -, hbit, h, -⟩
    obtain rfl : col = 0 := by omega
    obtain rfl : r = 0 := Nat.lt_one_iff.mp hr
    exact absurd hbit (by decide)
  · rintro ⟨px, py, -, h⟩
    exact absurd h (by rw [show pixel (drawState demo.fb).fb px py = false from demo_pixels_off px py]; decide)

/-- The same screen with the bottom right pixel lit: the sprite collides with it. -/
theorem witness_drawXorsTheSprite_lit : ∃ s : State, s.Inv ∧ ∃ px py,
    SpriteCovers s.cfg (fun r => s.readByte (s.index.toNat + r)) 62 31 (1#4).toNat px py ∧ pixel s.fb px py = true :=
  ⟨drawState (flipPixel demo.fb 63 31), drawState_inv (flipPixel_size _ _ _), 63, 31, drawState_covers _, by decide⟩

/-- For `DrawTwiceRestoresTheScreen` and `CollisionOfRepeatedDraw`: two identical draws, the second one later and through other registers; the screen is clear before the first. -/
theorem witness_drawTwiceRestoresTheScreen_and_collision : ∃ s t u : State, s.Inv ∧ exec (.drw 0 1 1) s = .next t ∧ u ≠ t ∧
    (∀ px py, SpriteCovers s.cfg (fun r => s.readByte (s.index.toNat + r))
        ((s.readV 0).toNat % s.cfg.displayWidth) ((s.readV 1).toNat % s.cfg.displayHeight) (1#4).toNat px py →
      pixel s.fb px py = false) ∧
    u.cfg = s.cfg ∧ u.fb = t.fb ∧ u.index = s.index ∧
    (∀ r, r < (1#4).toNat → u.readByte (s.index.toNat + r) = s.readByte (s.index.toNat + r)) ∧
    (u.readV 2).toNat % s.cfg.displayWidth = (s.readV 0).toNat % s.cfg.displayWidth ∧
    (u.readV 1).toNat % s.cfg.displayHeight = (s.readV 1).toNat % s.cfg.displayHeight :=
  ⟨drawState demo.fb, _,
    ((((drawState demo.fb).setFb ((drawState demo.fb).drawn 0 1 1).1).writeV 15 0).advance).writeV 2 126,
    drawState_inv rfl, rfl, by decide, fun px py _ => demo_pixels_off px py, rfl, rfl, rfl, fun _ _ => rfl, by decide,
    by decide⟩

/-- A running tick that fetches each of the three timer instructions. -/
theorem witness_timerInstructionTicks : ((ready 0xF307).kw = .running ∧ (ready 0xF307).fetchDecode = .ok (.ldVxDt 3)) ∧
    ((ready 0xF315).kw = .running ∧ (ready 0xF315).fetchDecode = .ok (.ldDtVx 3)) ∧
    (ready 0xF318).kw = .running ∧ (ready 0xF318).fetchDecode = .ok (.ldStVx 3) := ⟨⟨rfl, rfl⟩, ⟨rfl, rfl⟩, rfl, rfl⟩

/-- The first index at which a decimal store fails, and the last at which it does not. -/
theorem witness_decimalStoreWritesThreeDigits : 4095 < (demo.setIndex 4094).index.toNat + 2 ∧
    (demo.setIndex 4093).index.toNat + 2 = 4095 := by decide

/-- The first index at which a transfer of sixteen registers fails, and the last at which it does not; register 15 included. -/
theorem witness_blockStore_and_blockLoad : 4095 < (demo.setIndex 4081).index.toNat + (15 : Reg).val ∧
    (demo.setIndex 4080).index.toNat + (15 : Reg).val = 4095 ∧ (15 : Reg) ≤ 15 := by decide

/-- The shortest store that fills a word, at the last word of memory. -/
theorem witness_storedBytesAreFetched : 1 ≤ (1 : Reg).val ∧ (demo.setIndex 4094).index.toNat + (1 : Reg).val ≤ 4095 := by decide

/-- The addresses at the edges of the clauses about single accesses, fetches and ranges. -/
theorem witness_memoryAccess_fetch_and_checkRange : (4095 < 4096 ∧ 4095 ≤ 4095) ∧ (4094 + 1 ≤ 4095 ∧ 4096 ≤ 4096) ∧ (4095 + 1 - 1 ≤ 4095) ∧
    (2 ≠ 0 ∧ 4095 < 4095 + 2 - 1) := by decide

/-- A running tick at 4096 and one at 4095; each failing transfer at the first index that is too high. -/
theorem witness_outOfBoundsReportsByAccess :
    (({ demo with pc := 4096 } : State).kw = .running ∧ 4096 ≤ ({ demo with pc := 4096 } : State).pc.toNat) ∧
    (({ demo with pc := 4095 } : State).kw = .running ∧ ({ demo with pc := 4095 } : State).pc.toNat = 4095) ∧
    (1 ≤ (2#4).toNat ∧ 4095 < (demo.setIndex 4095).index.toNat + (2#4).toNat - 1) ∧
    4095 < (demo.setIndex 4094).index.toNat + 2 ∧ 4095 < (demo.setIndex 4095).index.toNat + (1 : Reg).val := by decide

/-- A fetched instruction that succeeds and one that fails. -/
theorem witness_stepRunsTheDecodedInstruction :
    ((ready 0x6A42).kw = .running ∧ (ready 0x6A42).pc.toNat + 1 ≤ 4095 ∧
      decode (BitVec.ofNat 16 (256 * ((ready 0x6A42).readByte 0x200).toNat + ((ready 0x6A42).readByte 0x201).toNat)) =
        .ok (.ldImm 10 0x42) ∧ ∃ t, exec (.ldImm 10 0x42) (ready 0x6A42) = .next t) ∧
    decode (BitVec.ofNat 16 (256 * ((ready 0x00EE).readByte 0x200).toNat + ((ready 0x00EE).readByte 0x201).toNat)) =
      .ok .ret ∧ exec .ret (ready 0x00EE) = .fault .stackUnderflow :=
  ⟨⟨rfl, by decide, by decide, _, rfl⟩, by decide, rfl⟩

/-- An awaiting tick with no key down, and one with key 3 the lowest down, under each policy. -/
theorem witness_awaitingTickResolvesOrWaits :
    ((demo.setKw (.awaitingKey 5)).kw = .awaitingKey 5 ∧ ∀ k, (demo.setKw (.awaitingKey 5)).keyDown k = false) ∧
    ((oneKey 3)[3] = true ∧ ∀ j : Key, j < 3 → (oneKey 3)[j.val] = false) ∧
    (∀ k : Key, ((demo.supply (oneKey 3)).keyDown k = true ↔ k = 3)) ∧
    demo.cfg.keyConfirm = .pressThenRelease ∧
    ({ demo with cfg := { demoConfig with keyConfirm := .anyDown } } : State).cfg.keyConfirm = .anyDown := by decide

/-- A captured tick with its key still down, and one with it up. -/
theorem witness_capturedTickCommitsOnRelease : ((demo.setKw (.captured 5 3)).supply (oneKey 3)).kw = .captured 5 3 ∧
    ((demo.setKw (.captured 5 3)).supply (oneKey 3)).keyDown 3 = true ∧
    (demo.setKw (.captured 5 3)).keyDown 3 = false := by decide

/-- Successful ticks: one that writes no timer, one that writes each. -/
theorem witness_timersCountDownOncePerTick :
    ((∃ t, step (ready 0x6A42) = .next t) ∧ ∀ x, (ready 0x6A42).fetchDecode ≠ .ok (.ldDtVx x) ∧
      (ready 0x6A42).fetchDecode ≠ .ok (.ldStVx x)) ∧
    (∃ t, step (ready 0xF315) = .next t) ∧ ∃ t, step (ready 0xF318) = .next t := by
  refine ⟨⟨⟨_, rfl⟩, fun x => ?_⟩, ⟨_, rfl⟩, _, rfl⟩
  rw [show (ready 0x6A42).fetchDecode = .ok (.ldImm 10 0x42) from rfl]
  exact ⟨fun h => (nomatch h), fun h => (nomatch h)⟩

/-- An instruction of each writer, which does change what it writes. -/
theorem witness_stateIsWrittenOnlyByItsWriters :
    (∃ t, exec (.ldI 1) demo = .next t ∧ t.index ≠ demo.index) ∧
    (∃ t, exec (.call 1) demo = .next t ∧ t.stack ≠ demo.stack ∧ t.sp ≠ demo.sp) ∧
    (∃ t, exec (.ldDtVx 0) (withRegs [(0, 9)]) = .next t ∧ t.dt ≠ (withRegs [(0, 9)]).dt) ∧
    (∃ t, exec (.ldStVx 0) (withRegs [(0, 9)]) = .next t ∧ t.st ≠ (withRegs [(0, 9)]).st) ∧
    (∃ t, exec (.rnd 0 0) demo = .next t ∧ t.rng ≠ demo.rng) ∧
    (∃ t, exec (.ldVxK 0) demo = .next t ∧ t.kw ≠ demo.kw) ∧
    (∃ t, exec (.ldMemVx 0) (withRegs [(0, 9)]) = .next t ∧ t.mem ≠ (withRegs [(0, 9)]).mem) ∧
    (∃ t, exec (.ldImm 0 9) demo = .next t ∧ t.v ≠ demo.v) :=
  ⟨⟨_, rfl, by decide⟩, ⟨_, rfl, by decide, by decide⟩, ⟨_, rfl, by decide⟩, ⟨_, rfl, by decide⟩, ⟨_, rfl, by decide⟩,
    ⟨_, rfl, by decide⟩, ⟨_, rfl, by decide⟩, _, rfl, by decide⟩

theorem witness_tickConsumesOneSnapshot : ∃ t, step (ready 0x6A42) = .next t := ⟨_, rfl⟩

/-- The stack pointer at both ends of its range. -/
theorem witness_instructionsFailOnlyByTheTaxonomy : demo.sp ≤ demo.cfg.stackCapacity ∧
    ({ demo with sp := 32 } : State).sp ≤ demo.cfg.stackCapacity := by decide

/-- For `FailedTickLeavesNoTrace` and `FailedTickRepeats`. -/
theorem witness_failedTick : ∃ t, tick (ready 0x5011) (oneKey 3) = (.failure (.decodeFailure 0x5011), t) := ⟨_, rfl⟩

theorem witness_screenIsSeenOnlyThroughCollision : (∃ t, step ((ready 0x00E0).setFb [[true]]) = .next t ∧ t.fb ≠ [[true]]) ∧
    ∃ t, exec (.drw 0 1 1) demo = .next t := ⟨⟨_, rfl, by decide⟩, _, rfl⟩

theorem witness_soundTimerIsReadByNoInstruction : (∃ t, step (ready 0x6A42) = .next t) ∧ step (ready 0x00EE) = .fault .stackUnderflow :=
  ⟨⟨_, rfl⟩, rfl⟩

/-- A running tick that reads no key, succeeding, and one failing. -/
theorem witness_keypadIsReadOnlyByKeyRules : ((ready 0x6A42).kw = .running ∧
      (∀ x, (ready 0x6A42).fetchDecode ≠ .ok (.skp x) ∧ (ready 0x6A42).fetchDecode ≠ .ok (.sknp x)) ∧
      ∃ t, step (ready 0x6A42) = .next t) ∧
    (∀ x, (ready 0x00EE).fetchDecode ≠ .ok (.skp x) ∧ (ready 0x00EE).fetchDecode ≠ .ok (.sknp x)) ∧
      step (ready 0x00EE) = .fault .stackUnderflow := by
  refine ⟨⟨rfl, fun x => ?_, _, rfl⟩, fun x => ?_, rfl⟩
  · rw [show (ready 0x6A42).fetchDecode = .ok (.ldImm 10 0x42) from rfl]
    exact ⟨fun h => (nomatch h), fun h => (nomatch h)⟩
  · rw [show (ready 0x00EE).fetchDecode = .ok .ret from rfl]
    exact ⟨fun h => (nomatch h), fun h => (nomatch h)⟩

/-- The screen's corner pixels are within its bounds. -/
theorem witness_hostOutputsShowScreenAndBeep : ∃ s : State, s.Inv ∧ 0 < s.cfg.displayWidth ∧ 63 < s.cfg.displayWidth ∧ 31 < s.cfg.displayHeight :=
  ⟨demo, demo_inv, by decide, by decide, by decide⟩

/-- For `ResetValues` and `ResetMeetsTheInvariant`: a well-formed configuration; the font's first and last byte, and the addresses on both sides of the font. -/
theorem witness_resetValues : ({ demoConfig with fontBase := 16 } : Config).wf = true ∧ demoConfig.fontTable[79]? = some 79 ∧
    demoConfig.fontTable[0]? = some 0 ∧ 31 < demoConfig.stackCapacity ∧
    (15 < ({ demoConfig with fontBase := 16 } : Config).fontBase ∧ 16 + 16 * 5 ≤ 96) := by decide

theorem witness_inv_ill_formed_excluded : ¬ ({ demo with sp := 33 } : State).Inv := fun h => absurd h.sp_le (by decide)

/-- A tick from a state that meets the invariant: a successful one and, of the host's, any. -/
theorem witness_everyTickKeepsTheInvariant : ∃ s t : State, s.Inv ∧ step s = .next t := by
  refine ⟨(demo.setKw (.awaitingKey 5)), _, ?_, rfl⟩
  exact ⟨demo_inv.cfg_wf, demo_inv.mem_wf, demo_inv.stack_size, demo_inv.sp_le, demo_inv.slots_le, demo_inv.fb_height,
    demo_inv.fb_width, demo_inv.pc_le, fun _ => by decide⟩

/-- The longest image that fits and the shortest that does not. -/
theorem witness_loadCopiesTheImage : demo.cfg.wf = true ∧ demo.loaded = false ∧ demo.ticks = 0 ∧
    Config.memSize - demo.cfg.programOrigin < 3585 ∧ 3584 ≤ Config.memSize - demo.cfg.programOrigin ∧
    ([0x12, 0x00] : List Byte)[1]? = some 0 := by decide

theorem witness_bootedProgramStartsAtOrigin : (List.replicate 3582 (0xFF : Byte)).length ≤ 3582 := by rw [List.length_replicate]

theorem witness_selfJumpRunsForever : (ready 0x1200).kw = .running ∧ (ready 0x1200).pc.toNat = (0x200#12).toNat ∧
    (ready 0x1200).fetchDecode = .ok (.jp 0x200) := ⟨rfl, rfl, rfl⟩

end Sys2Proof.Tests
end

section
/-! SUPPORT. What a successful instruction does, said once: the shapes of its effect on the state, and for each column of the table
of R10 the shapes that write it. -/

namespace Sys2Proof.Machine

/-- `Effect s i t`: running `i` in `s` can lead to `t`. One constructor per shape of effect; a value that only fills a register, the
index register or a skip's choice is left open, and what the instruction's guard secured is kept. -/
inductive Effect (s : State) : Instr → State → Prop
  | clear : Effect s .cls (s.setFb (clearAll s.fb)).advance
  | ret (hsp : s.sp ≠ 0) : Effect s .ret (s.pop.setPc s.newest)
  | jump (a : Addr12) : Effect s (.jp a) (s.setPc (zext12 a))
  | jumpV0 (a : Addr12) : Effect s (.jpV0 a) (s.setPc (zext12 a + zext8 (s.readV 0)))
  | call (a : Addr12) (hsp : s.sp < s.cfg.stackCapacity) : Effect s (.call a) ((s.push (s.pc + 2)).setPc (zext12 a))
  | skip {i : Instr} (hi : isSkip i = true) (m : Bool) : Effect s i (s.skipIf m)
  | load {i : Instr} {x : Reg} (hf : writesFlag i = false) (hx : namedDestination i = some x) (b : Byte) :
      Effect s i (s.writeV x b).advance
  | flagged {i : Instr} {x : Reg} (hf : writesFlag i = true) (hx : namedDestination i = some x) (r : Byte) (f : Bool) :
      Effect s i (s.writeWithFlag x r (flagByte f)).advance
  | random (x : Reg) (nn b r : Byte) : Effect s (.rnd x nn) ((s.setRng r).writeV x b).advance
  | loadIndex (a : Addr12) (w : Word) : Effect s (.ldI a) (s.setIndex w).advance
  | addIndex (x : Reg) (w : Word) : Effect s (.addIVx x) (s.setIndex w).advance
  | glyphIndex (x : Reg) (w : Word) : Effect s (.ldFVx x) (s.setIndex w).advance
  | draw (x y : Reg) (n : Nibble) :
      Effect s (.drw x y n) ((s.setFb (s.drawn x y n).1).writeV Reg.vf (flagByte (s.drawn x y n).2)).advance
  | await (x : Reg) : Effect s (.ldVxK x) (s.setKw (.awaitingKey x))
  | setDelay (x : Reg) : Effect s (.ldDtVx x) (s.setDt (s.readV x)).advance
  | setSound (x : Reg) : Effect s (.ldStVx x) (s.setSt (s.readV x)).advance
  | decimal (x : Reg) (hr : s.index.toNat + 3 ≤ Config.memSize) :
      Effect s (.ldBVx x) (s.writeBytes s.index.toNat (decimalDigits (s.readV x))).advance
  | blockStore (x : Reg) (hr : s.index.toNat + (x.val + 1) ≤ Config.memSize) (w : Word) :
      Effect s (.ldMemVx x) ((s.writeBytes s.index.toNat (s.regRange x)).setIndex w).advance
  | blockLoad (x : Reg) (w : Word) :
      Effect s (.ldVxMem x) ((s.loadRegs (s.readBytes s.index.toNat (x.val + 1))).setIndex w).advance

/-- Both settings of `INDEX_AUTOINCREMENT` give the index register some value, and write nothing else. -/
theorem State.autoIndex_eq_setIndex (s : State) (n : Nat) : ∃ w, s.autoIndex n = s.setIndex w := by
  unfold State.autoIndex
  split
  · exact ⟨_, rfl⟩
  · exact ⟨s.index, rfl⟩

/-- All a successful instruction can have done. -/
theorem exec_effect {i : Instr} {s t : State} (h : exec i s = .next t) : Effect s i t := by
  cases i with
  | cls => cases h; exact .clear
  | ret =>
    simp only [exec, execRet] at h
    split at h
    · cases h
    · cases h; exact .ret ‹_›
  | jp a => cases h; exact .jump a
  | jpV0 a => cases h; exact .jumpV0 a
  | call a =>
    simp only [exec, execCall] at h
    split at h
    · cases h
    · cases h; exact .call a (by omega)
  | seImm | sneImm | seReg | sneReg | skp | sknp => cases h; exact .skip rfl _
  | ldImm | addImm | ld | or | and | xor | ldVxDt => cases h; exact .load rfl rfl _
  | add | sub | shr | subn | shl => cases h; exact .flagged rfl rfl _ _
  | rnd x nn => cases h; exact .random x nn _ _
  | ldI a => cases h; exact .loadIndex a _
  | addIVx x => cases h; exact .addIndex x _
  | ldFVx x => cases h; exact .glyphIndex x _
  | drw x y n =>
    obtain ⟨he, -⟩ := withRange_next h
    cases he; exact .draw x y n
  | ldVxK x => cases h; exact .await x
  | ldDtVx x => cases h; exact .setDelay x
  | ldStVx x => cases h; exact .setSound x
  | ldBVx x =>
    obtain ⟨he, hr⟩ := withRange_next h
    cases he; exact .decimal x (by omega)
  | ldMemVx x =>
    obtain ⟨he, hr⟩ := withRange_next h
    obtain ⟨w, hw⟩ := (s.writeBytes s.index.toNat (s.regRange x)).autoIndex_eq_setIndex (x.val + 1)
    rw [hw] at he
    cases he; exact .blockStore x (by omega) w
  | ldVxMem x =>
    obtain ⟨he, -⟩ := withRange_next h
    obtain ⟨w, hw⟩ := (s.loadRegs (s.readBytes s.index.toNat (x.val + 1))).autoIndex_eq_setIndex (x.val + 1)
    rw [hw] at he
    cases he; exact .blockLoad x w

/-! ### The writers of each piece of state (R10, the column "written by") -/

section Writers

variable {s t : State} {i : Instr}

theorem Effect.index_writers (h : Effect s i t) (hne : t.index ≠ s.index) :
    (∃ a, i = .ldI a) ∨ ∃ x, i = .addIVx x ∨ i = .ldFVx x ∨ i = .ldMemVx x ∨ i = .ldVxMem x := by
  cases h with
  | loadIndex a => exact .inl ⟨a, rfl⟩
  | addIndex x => exact .inr ⟨x, .inl rfl⟩
  | glyphIndex x => exact .inr ⟨x, .inr (.inl rfl)⟩
  | blockStore x => exact .inr ⟨x, .inr (.inr (.inl rfl))⟩
  | blockLoad x => exact .inr ⟨x, .inr (.inr (.inr rfl))⟩
  | _ => exact absurd rfl hne

theorem Effect.stack_writers (h : Effect s i t) (hne : t.stack ≠ s.stack) : ∃ a, i = .call a := by
  cases h with
  | call a => exact ⟨a, rfl⟩
  | _ => exact absurd rfl hne

theorem Effect.sp_writers (h : Effect s i t) (hne : t.sp ≠ s.sp) : i = .ret ∨ ∃ a, i = .call a := by
  cases h with
  | ret => exact .inl rfl
  | call a => exact .inr ⟨a, rfl⟩
  | _ => exact absurd rfl hne

theorem Effect.dt_writers (h : Effect s i t) (hne : t.dt ≠ s.dt) : ∃ x, i = .ldDtVx x := by
  cases h with
  | setDelay x => exact ⟨x, rfl⟩
  | _ => exact absurd rfl hne

theorem Effect.st_writers (h : Effect s i t) (hne : t.st ≠ s.st) : ∃ x, i = .ldStVx x := by
  cases h with
  | setSound x => exact ⟨x, rfl⟩
  | _ => exact absurd rfl hne

theorem Effect.rng_writers (h : Effect s i t) (hne : t.rng ≠ s.rng) : ∃ x nn, i = .rnd x nn := by
  cases h with
  | random x nn => exact ⟨x, nn, rfl⟩
  | _ => exact absurd rfl hne

theorem Effect.kw_writers (h : Effect s i t) (hne : t.kw ≠ s.kw) : ∃ x, i = .ldVxK x := by
  cases h with
  | await x => exact ⟨x, rfl⟩
  | _ => exact absurd rfl hne

theorem Effect.mem_writers (h : Effect s i t) (hne : t.mem ≠ s.mem) : ∃ x, i = .ldBVx x ∨ i = .ldMemVx x := by
  cases h with
  | decimal x => exact ⟨x, .inl rfl⟩
  | blockStore x => exact ⟨x, .inr rfl⟩
  | _ => exact absurd rfl hne

theorem Effect.fb_writers (h : Effect s i t) (hne : t.fb ≠ s.fb) : i = .cls ∨ ∃ x y n, i = .drw x y n := by
  cases h with
  | clear => exact .inl rfl
  | draw x y n => exact .inr ⟨x, y, n, rfl⟩
  | _ => exact absurd rfl hne

theorem Effect.v_writers (h : Effect s i t) (hne : t.v ≠ s.v) :
    (∃ x, namedDestination i = some x) ∨ ∃ x y n, i = .drw x y n := by
  cases h with
  | load _ hx => exact .inl ⟨_, hx⟩
  | flagged _ hx => exact .inl ⟨_, hx⟩
  | random x nn => exact .inl ⟨x, rfl⟩
  | blockLoad x => exact .inl ⟨x, rfl⟩
  | draw x y n => exact .inr ⟨x, y, n, rfl⟩
  | _ => exact absurd rfl hne

/-- `pc` moves on by one instruction but for the control transfers and the start of a key wait (R15). -/
theorem Effect.pc_after (h : Effect s i t) :
    t.pc = s.pc + 2 ∨ isSkip i = true ∨ i = .ret ∨ (∃ a, i = .jp a ∨ i = .call a ∨ i = .jpV0 a) ∨
      ∃ x, i = .ldVxK x ∧ t.pc = s.pc := by
  cases h with
  | skip hi => exact .inr (.inl hi)
  | ret => exact .inr (.inr (.inl rfl))
  | jump a => exact .inr (.inr (.inr (.inl ⟨a, .inl rfl⟩)))
  | call a => exact .inr (.inr (.inr (.inl ⟨a, .inr (.inl rfl)⟩)))
  | jumpV0 a => exact .inr (.inr (.inr (.inl ⟨a, .inr (.inr rfl)⟩)))
  | await x => exact .inr (.inr (.inr (.inr ⟨x, rfl, rfl⟩)))
  | _ => exact .inl rfl

/-- No instruction writes the configuration or the inputs (log 1, log 2, log 9). -/
theorem Effect.inputs_kept (h : Effect s i t) :
    t.cfg = s.cfg ∧ t.keypads = s.keypads ∧ t.ticks = s.ticks ∧ t.loaded = s.loaded := by
  cases h <;> exact ⟨rfl, rfl, rfl, rfl⟩

/-! ### The flag register (R14) -/

/-- A skip is no flag writer. -/
theorem writesFlag_of_isSkip (hi : isSkip i = true) : writesFlag i = false := by
  cases i with
  | seImm | sneImm | seReg | sneReg | skp | sknp => rfl
  | _ => cases hi

theorem Effect.flag_is_bit (h : Effect s i t) (hf : writesFlag i = true) : t.readV 15 = 0 ∨ t.readV 15 = 1 := by
  cases h with
  | flagged _ _ r f =>
    rw [State.advance_readV, writeWithFlag_readV_vf]
    exact flagByte_zero_or_one f
  | draw x y n =>
    rw [State.advance_readV, State.readV_writeV_self]
    exact flagByte_zero_or_one _
  | skip hi => exact absurd hf (by rw [writesFlag_of_isSkip hi]; decide)
  | load hf' => exact absurd hf (by rw [hf']; decide)
  | _ => cases hf

theorem eq_of_readV_writeV_ne {x q : Reg} {b : Byte} (hne : (s.writeV x b).readV q ≠ s.readV q) : x = q := by
  by_contra hx
  exact hne (s.readV_writeV_ne b hx)

/-- A block load reaches `VF` only through its last register. -/
theorem eq_vf_of_blockLoad {x : Reg} {a : Nat} (hne : (s.loadRegs (s.readBytes a (x.val + 1))).readV 15 ≠ s.readV 15) :
    x = 15 := by
  by_contra hx
  have hval : x.val ≠ 15 := fun h => hx (Fin.ext h)
  have hlt : ¬ (15 < (s.readBytes a (x.val + 1)).length) := by
    rw [State.readBytes_length]
    omega
  exact hne ((s.loadRegs_readV _ 15).trans (dif_neg hlt))

theorem Effect.vf_writer_names_it (h : Effect s i t) (hf : writesFlag i = false) (hne : t.readV 15 ≠ s.readV 15) :
    namedDestination i = some 15 := by
  cases h with
  | load _ hx b => rw [hx, eq_of_readV_writeV_ne hne]
  | random x nn b r => exact congrArg some (eq_of_readV_writeV_ne (s := s.setRng r) hne)
  | blockLoad x w => exact congrArg some (eq_vf_of_blockLoad hne)
  | flagged hf' => rw [hf'] at hf; cases hf
  | draw => cases hf
  | _ => exact absurd rfl hne

end Writers

/-- Settles O21: the flag-writing shapes leave a flag byte in `VF`; every other shape writes it only as its destination. -/
theorem flagWritersAreTheClosedList : Obligations.FlagWritersAreTheClosedList := fun _ _ _ h =>
  ⟨(exec_effect h).flag_is_bit, (exec_effect h).vf_writer_names_it⟩

/-- Settles O42, column by column. -/
theorem stateIsWrittenOnlyByItsWriters : Obligations.StateIsWrittenOnlyByItsWriters := by
  intro i s t h
  have he := exec_effect h
  exact ⟨he.index_writers, he.stack_writers, he.sp_writers, he.dt_writers, he.st_writers, he.rng_writers, he.kw_writers,
    he.mem_writers, he.fb_writers, he.v_writers, he.pc_after, he.inputs_kept⟩

end Sys2Proof.Machine
end

section
/-! SUPPORT. The invariant (R28): the state after reset meets it, every shape of effect keeps it from a fetchable `pc`, and so do the
key wait, the end of a tick and the host's snapshot. -/

namespace Sys2Proof.Machine

theorem resetWith_inv {c : Config} (h : c.wf = true) : (State.resetWith c).Inv where
  cfg_wf := h
  mem_wf := reset_mem_wf c
  stack_size := List.length_replicate
  sp_le := Nat.zero_le _
  slots_le := fun w hw => by rw [List.eq_of_mem_replicate hw]; decide
  fb_height := List.length_replicate
  fb_width := fun row hr => by rw [List.eq_of_mem_replicate hr]; exact List.length_replicate
  pc_le := by
    obtain ⟨-, -, horigin, -⟩ := c.wf_iff.mp h
    exact (Nat.mod_le c.programOrigin _).trans (by omega)
  wait_pc := fun hk => absurd rfl hk

/-- Settles O52: the hardware's configuration is one of the well-formed ones, whatever its OPEN parameters. -/
theorem resetMeetsTheInvariant : Obligations.ResetMeetsTheInvariant :=
  ⟨resetWith_inv Config.machine_wf, fun _ => resetWith_inv⟩

/-! ### `pc` as a number -/

theorem zext12_toNat_le (a : Addr12) : (zext12 a).toNat ≤ 4095 := by
  rw [zext12_toNat]
  omega

/-- From a fetchable address, `pc + k` for a small `k` stays in R28's bound. -/
theorem add_toNat_le {pc k : Word} (hpc : pc.toNat + 1 < Config.memSize) (hk : k.toNat ≤ 4) :
    (pc + k).toNat ≤ 4094 + k.toNat := by
  rw [BitVec.toNat_add]
  simp only [Config.memSize] at hpc
  omega

/-- The computed jump reaches at most 0x0FFF + 0xFF, which is where R28's bound on `pc` comes from (R84). -/
theorem jumpV0_toNat_le (a : Addr12) (b : Byte) : (zext12 a + zext8 b).toNat ≤ 0x10FE := by
  rw [BitVec.toNat_add, zext12_toNat, zext8_toNat]
  omega

theorem newest_toNat_le {s : State} (h : ∀ w ∈ s.stack, w.toNat ≤ 4096) : s.newest.toNat ≤ 4096 := by
  rw [State.newest, List.getD_eq_getElem?_getD]
  cases hw : s.stack[s.sp - 1]? with
  | none => decide
  | some w => exact h w (List.mem_of_getElem? hw)

/-! ### The size of the framebuffer -/

theorem clearAll_size (fb : Framebuffer) : (clearAll fb).map List.length = fb.map List.length := by
  simp [clearAll, Function.comp_def]

theorem drawn_size (s : State) (x y : Reg) (n : Nibble) : (s.drawn x y n).1.map List.length = s.fb.map List.length := by
  rw [State.drawn, drawSprite_fst]
  exact flipAll_size _ _

theorem length_eq_of_size {fb fb' : Framebuffer} (hs : fb'.map List.length = fb.map List.length) : fb'.length = fb.length := by
  simpa using congrArg List.length hs

theorem width_of_size {fb fb' : Framebuffer} {w : Nat} (hs : fb'.map List.length = fb.map List.length)
    (hw : ∀ row ∈ fb, row.length = w) : ∀ row ∈ fb', row.length = w := by
  intro row hr
  have hm : row.length ∈ fb.map List.length := hs ▸ List.mem_map_of_mem hr
  obtain ⟨r, hr', he⟩ := List.mem_map.mp hm
  rw [← he, hw r hr']

/-! ### Every shape of effect keeps each clause -/

section Clauses

variable {s t : State} {i : Instr}

theorem Effect.fb_size (h : Effect s i t) : t.fb.map List.length = s.fb.map List.length := by
  cases h with
  | clear => exact clearAll_size s.fb
  | draw x y n => exact drawn_size s x y n
  | _ => rfl

theorem Effect.stack_length (h : Effect s i t) : t.stack.length = s.stack.length := by
  cases h with
  | call => exact List.length_set
  | _ => rfl

theorem Effect.mem_wf (h : Effect s i t) (hm : Memory.wf s.cfg s.mem) : Memory.wf t.cfg t.mem := by
  cases h with
  | decimal x hr => exact State.writeBytes_mem_wf (s := s) hm hr
  | blockStore x hr => exact State.writeBytes_mem_wf (s := s) hm (by rwa [regRange_length])
  | _ => exact hm

theorem Effect.sp_le (h : Effect s i t) (hs : s.sp ≤ s.cfg.stackCapacity) : t.sp ≤ t.cfg.stackCapacity := by
  cases h with
  | ret => exact (Nat.sub_le _ _).trans hs
  | call a hlt => exact hlt
  | _ => exact hs

theorem Effect.slots_le (h : Effect s i t) (hpc : s.pc.toNat + 1 < Config.memSize) (hs : ∀ w ∈ s.stack, w.toNat ≤ 4096) :
    ∀ w ∈ t.stack, w.toNat ≤ 4096 := by
  cases h with
  | call =>
    intro w hw
    rcases List.mem_or_eq_of_mem_set hw with hold | rfl
    · exact hs w hold
    · exact add_toNat_le hpc (by decide)
  | _ => exact hs

theorem Effect.pc_le (h : Effect s i t) (hpc : s.pc.toNat + 1 < Config.memSize) (hs : ∀ w ∈ s.stack, w.toNat ≤ 4096) :
    t.pc.toNat ≤ 0x10FE := by
  have hnext : (s.pc + 2).toNat ≤ 0x10FE := (add_toNat_le hpc (by decide)).trans (by decide)
  have hskip : (s.pc + 4).toNat ≤ 0x10FE := (add_toNat_le hpc (by decide)).trans (by decide)
  cases h with
  | ret => exact (newest_toNat_le hs).trans (by decide)
  | jump a => exact (zext12_toNat_le a).trans (by decide)
  | jumpV0 a => exact jumpV0_toNat_le a _
  | call a => exact (zext12_toNat_le a).trans (by decide)
  | skip _ m =>
    rw [State.skipIf_pc]
    split
    · exact hskip
    · exact hnext
  | await => exact (Nat.le_of_succ_le (Nat.le_of_lt hpc)).trans (by decide)
  | _ => exact hnext

theorem Effect.wait_pc (h : Effect s i t) (hk : s.kw = .running) (hpc : s.pc.toNat + 1 < Config.memSize)
    (ht : t.kw ≠ .running) : t.pc.toNat + 1 < Config.memSize := by
  cases h with
  | await => exact hpc
  | _ => exact absurd hk ht

/-- A successful instruction, fetched in range by a running machine, keeps the invariant. -/
theorem Effect.inv (h : Effect s i t) (hs : s.Inv) (hk : s.kw = .running) (hpc : s.pc.toNat + 1 < Config.memSize) :
    t.Inv := by
  obtain ⟨hcfg, -⟩ := h.inputs_kept
  exact {
    cfg_wf := hcfg ▸ hs.cfg_wf
    mem_wf := h.mem_wf hs.mem_wf
    stack_size := by rw [h.stack_length, hcfg, hs.stack_size]
    sp_le := h.sp_le hs.sp_le
    slots_le := h.slots_le hpc hs.slots_le
    fb_height := by rw [length_eq_of_size h.fb_size, hcfg, hs.fb_height]
    fb_width := hcfg ▸ width_of_size h.fb_size hs.fb_width
    pc_le := h.pc_le hpc hs.slots_le
    wait_pc := h.wait_pc hk hpc }

end Clauses

/-! ### The rest of a tick -/

section Tick

variable {s : State}

theorem commitKey_inv (h : s.Inv) (hpc : s.pc.toNat + 1 < Config.memSize) (r : Reg) (k : Key) : (s.commitKey r k).Inv :=
  { h with
    pc_le := (add_toNat_le hpc (by decide)).trans (by decide)
    wait_pc := fun hk => absurd rfl hk }

theorem setKw_inv (h : s.Inv) (hpc : s.pc.toNat + 1 < Config.memSize) (k : KeyWait) : (s.setKw k).Inv :=
  { h with wait_pc := fun _ => hpc }

theorem endTick_inv (h : s.Inv) : s.endTick.Inv := { h with }

theorem supply_inv (h : s.Inv) (k : Keypad) : (s.supply k).Inv := { h with }

theorem keyWaitAwaiting_inv (h : s.Inv) (hpc : s.pc.toNat + 1 < Config.memSize) (r : Reg) : (s.keyWaitAwaiting r).Inv := by
  rcases keyWaitAwaiting_cases s r with ⟨-, he⟩ | ⟨k, -, -, he⟩ | ⟨k, -, -, he⟩ <;> rw [he]
  · exact h
  · exact commitKey_inv h hpc r k
  · exact setKw_inv h hpc _

theorem keyWaitCaptured_inv (h : s.Inv) (hpc : s.pc.toNat + 1 < Config.memSize) (r : Reg) (k : Key) :
    (s.keyWaitCaptured r k).Inv := by
  rcases keyWaitCaptured_cases s r k with ⟨-, he⟩ | ⟨-, he⟩ <;> rw [he]
  · exact h
  · exact commitKey_inv h hpc r k

/-- A successful tick keeps the invariant, whichever arm ran. -/
theorem step_inv {t : State} (h : s.Inv) (hs : step s = .next t) : t.Inv := by
  rcases step_next hs with ⟨hk, i, u, hd, hu, rfl⟩ | ⟨r, hk, rfl⟩ | ⟨r, k, hk, rfl⟩
  · exact endTick_inv ((exec_effect hu).inv h hk (fetchDecode_range hd))
  · exact endTick_inv (keyWaitAwaiting_inv h (h.wait_pc (by simp [hk])) r)
  · exact endTick_inv (keyWaitCaptured_inv h (h.wait_pc (by simp [hk])) r k)

end Tick

/-- The host's tick keeps the invariant, whatever it reports. -/
theorem tick_inv {s : State} (h : s.Inv) (k : Keypad) : (tick s k).2.Inv := by
  unfold tick
  split
  · exact step_inv (supply_inv h k) ‹_›
  · exact h
  · exact h

/-- Settles O53: a successful tick by the arm that ran, a failed one because it leaves the machine as it was. -/
theorem everyTickKeepsTheInvariant : Obligations.EveryTickKeepsTheInvariant :=
  ⟨fun _ _ => step_inv, fun _ k h => tick_inv h k⟩

end Sys2Proof.Machine
end

section
/-! SUPPORT. What is written and never read back: `ST` (R20) and, but for the collision flag, the framebuffer (R23). Changing them
before an instruction comes to changing them after it. -/

namespace Sys2Proof.Machine

/-- A state with its sound timer and its framebuffer changed. -/
def State.mapOutputs (g : Byte → Byte) (f : Framebuffer → Framebuffer) (s : State) : State :=
  { s with st := g s.st, fb := f s.fb }

theorem onNext_onNext (r : Result) (k l : State → State) : onNext (onNext r k) l = onNext r (fun s => l (k s)) := by
  cases r <;> rfl

theorem onNext_ite (p : Prop) [Decidable p] (r r' : Result) (k : State → State) :
    onNext (if p then r else r') k = if p then onNext r k else onNext r' k := apply_ite (onNext · k) p r r'

theorem onNext_withRange (a n : Nat) (e : Result) (k : State → State) :
    onNext (withRange a n e) k = withRange a n (onNext e k) := by
  unfold withRange
  cases checkRange a n <;> rfl

theorem autoIndex_mapOutputs (g : Byte → Byte) (f : Framebuffer → Framebuffer) (s : State) (n : Nat) :
    (s.mapOutputs g f).autoIndex n = (s.autoIndex n).mapOutputs g f := by
  unfold State.autoIndex
  rw [apply_ite (State.mapOutputs g f)]
  rfl

/-- An instruction commutes with a change of `ST` and of the framebuffer, unless it is one that writes what is changed. -/
theorem exec_mapOutputs {g : Byte → Byte} {f : Framebuffer → Framebuffer} {i : Instr}
    (hg : g = id ∨ ∀ x, i ≠ .ldStVx x) (hf : f = id ∨ (i ≠ .cls ∧ ∀ x y n, i ≠ .drw x y n)) (s : State) :
    exec i (s.mapOutputs g f) = onNext (exec i s) (State.mapOutputs g f) := by
  cases i with
  | ldStVx x =>
    obtain rfl | hx := hg
    · rfl
    · exact absurd rfl (hx x)
  | cls =>
    obtain rfl | hx := hf
    · rfl
    · exact absurd rfl hx.1
  | drw x y n =>
    obtain rfl | hx := hf
    · refine Eq.trans ?_ (onNext_withRange ..).symm
      rfl
    · exact absurd rfl (hx.2 x y n)
  | ret | call =>
    refine Eq.trans ?_ (onNext_ite ..).symm
    rfl
  | ldBVx x =>
    refine Eq.trans ?_ (onNext_withRange ..).symm
    rfl
  | ldMemVx x =>
    refine Eq.trans ?_ (onNext_withRange ..).symm
    exact congrArg (fun u => withRange s.index.toNat (x.val + 1) (.next u.advance))
      (autoIndex_mapOutputs g f (s.writeBytes s.index.toNat (s.regRange x)) (x.val + 1))
  | ldVxMem x =>
    refine Eq.trans ?_ (onNext_withRange ..).symm
    exact congrArg (fun u => withRange s.index.toNat (x.val + 1) (.next u.advance))
      (autoIndex_mapOutputs g f (s.loadRegs (s.readBytes s.index.toNat (x.val + 1))) (x.val + 1))
  | _ => rfl

/-- Every instruction but `LD ST, Vx` carries a changed `ST` along. -/
theorem exec_setSt {i : Instr} (hi : ∀ x, i ≠ .ldStVx x) (s : State) (b : Byte) :
    exec i (s.setSt b) = onNext (exec i s) (·.setSt b) :=
  exec_mapOutputs (g := fun _ => b) (f := id) (.inr hi) (.inl rfl) s

/-- Every instruction but `CLS` and `DRW` carries a changed framebuffer along. -/
theorem exec_setFb {i : Instr} (hcls : i ≠ .cls) (hdrw : ∀ x y n, i ≠ .drw x y n) (s : State) (other : Framebuffer) :
    exec i (s.setFb other) = onNext (exec i s) (·.setFb other) :=
  exec_mapOutputs (g := id) (f := fun _ => other) (.inl rfl) (.inr ⟨hcls, hdrw⟩) s

/-! ### The sound timer -/

theorem keyWaitAwaiting_setSt (s : State) (b : Byte) (r : Reg) :
    (s.setSt b).keyWaitAwaiting r = (s.keyWaitAwaiting r).setSt b := by
  have hkey : (s.setSt b).leastKeyDown = s.leastKeyDown := rfl
  unfold State.keyWaitAwaiting
  rw [hkey, State.setSt_cfg]
  cases s.leastKeyDown with
  | none => rfl
  | some k => cases s.cfg.keyConfirm <;> rfl

theorem keyWaitCaptured_setSt (s : State) (b : Byte) (r : Reg) (k : Key) :
    (s.setSt b).keyWaitCaptured r k = (s.keyWaitCaptured r k).setSt b := by
  unfold State.keyWaitCaptured
  rw [State.setSt_keyDown]
  cases s.keyDown k <;> rfl

/-- `LD ST, Vx` overwrites the changed value; every other arm carries it along. -/
theorem tickArm_setSt (s : State) (b : Byte) :
    (s.setSt b).tickArm = s.tickArm ∨ (s.setSt b).tickArm = onNext s.tickArm (·.setSt b) := by
  unfold State.tickArm
  rw [State.setSt_kw]
  cases s.kw with
  | awaitingKey r => exact .inr (congrArg Host.Outcome.next (keyWaitAwaiting_setSt s b r))
  | captured r k => exact .inr (congrArg Host.Outcome.next (keyWaitCaptured_setSt s b r k))
  | running =>
    have hfetch : (s.setSt b).fetchDecode = s.fetchDecode := fetchDecode_congr rfl (fun _ => rfl)
    simp only [State.runInstr, hfetch]
    cases s.fetchDecode with
    | error f => exact .inl rfl
    | ok i =>
      by_cases hi : ∃ x, i = .ldStVx x
      · obtain ⟨x, rfl⟩ := hi
        exact .inl rfl
      · exact .inr (exec_setSt (fun x hx => hi ⟨x, hx⟩) s b)

/-- A tick from a changed `ST` is the same tick, at most its `ST` changed. -/
theorem step_setSt (s : State) (b : Byte) :
    step (s.setSt b) = step s ∨ step (s.setSt b) = onNext (step s) (·.setSt (countDown b)) := by
  unfold step
  obtain h | h := tickArm_setSt s b <;> rw [h]
  · exact .inl rfl
  · right
    rw [onNext_onNext, onNext_onNext]
    rfl

/-- Settles O48: the changed `ST` is overwritten or carried along, and never read. -/
theorem soundTimerIsReadByNoInstruction : Obligations.SoundTimerIsReadByNoInstruction := by
  intro s b
  obtain h | h := step_setSt s b <;> rw [h]
  · exact ⟨fun t ht => ⟨t, ht, KeepsAllBut.refl _ t⟩, fun _ hf => hf⟩
  · exact ⟨fun t ht => ⟨t.setSt (countDown b), by rw [ht]; rfl, t.setSt_keeps _⟩, fun f hf => by rw [hf]; rfl⟩

/-! ### The framebuffer -/

/-- Only `CLS` and `DRW` ticks change the framebuffer: the key wait and the end of a tick do not (R23). -/
theorem step_fb_writers {s t : State} (h : step s = .next t) (hne : t.fb ≠ s.fb) :
    s.kw = .running ∧ (s.fetchDecode = .ok .cls ∨ ∃ x y n, s.fetchDecode = .ok (.drw x y n)) := by
  rcases step_next h with ⟨hk, i, u, hd, hu, rfl⟩ | ⟨r, -, rfl⟩ | ⟨r, k, -, rfl⟩
  · refine ⟨hk, ?_⟩
    obtain rfl | ⟨x, y, n, rfl⟩ := (exec_effect hu).fb_writers hne
    · exact .inl hd
    · exact .inr ⟨x, y, n, hd⟩
  · exact absurd (keyWaitAwaiting_keeps s r .screen (by simp)) hne
  · exact absurd (keyWaitCaptured_keeps s r k .screen (by simp)) hne

theorem KeepsAllBut.symm {P : Part → Prop} {s t : State} (h : KeepsAllBut P s t) : KeepsAllBut P t s :=
  fun p hp => Part.same_symm (h p hp)

theorem writeV_keeps_writeV (s : State) (r : Reg) (b c : Byte) :
    KeepsAllBut (fun p => p = .reg r) (s.writeV r b) (s.writeV r c) :=
  (s.writeV_keeps r b).symm.trans (s.writeV_keeps r c) (fun _ h => h) (fun _ h => h)

/-- Two draws from one state, of whatever screens and collisions, lead to states that differ in the screen and `VF` alone. -/
theorem draw_results_keep (s : State) (f f' : Framebuffer) (b b' : Byte) :
    KeepsAllBut (fun p => p = .screen ∨ p = .reg 15) ((s.setFb f).writeV Reg.vf b).advance
      ((s.setFb f').writeV Reg.vf b').advance :=
  (State.setFb_keeps _ f').trans (writeV_keeps_writeV (s.setFb f').advance Reg.vf b b') (fun _ => .inl) (fun _ => .inr)

/-- From another screen, an instruction still succeeds, and at most the screen and, for `DRW`, `VF` differ after it (R23). -/
theorem exec_from_other_screen {i : Instr} {s t : State} (other : Framebuffer) (h : exec i s = .next t) :
    ∃ t', exec i (s.setFb other) = .next t' ∧
      KeepsAllBut (fun p => p = .screen ∨ (p = .reg 15 ∧ ∃ x y n, i = .drw x y n)) t t' := by
  by_cases hcls : i = .cls
  · subst hcls
    cases h
    exact ⟨_, rfl, (State.setFb_keeps _ (clearAll other)).mono fun _ => .inl⟩
  by_cases hdrw : ∃ x y n, i = .drw x y n
  · obtain ⟨x, y, n, rfl⟩ := hdrw
    obtain ⟨he, hr⟩ := withRange_next h
    cases he
    exact ⟨_, withRange_ok _ hr, (draw_results_keep s _ _ _ _).mono fun _ => .imp_right fun hp => ⟨hp, x, y, n, rfl⟩⟩
  · have hother := exec_setFb hcls (fun x y n hi => hdrw ⟨x, y, n, hi⟩) s other
    rw [h] at hother
    exact ⟨t.setFb other, hother, (t.setFb_keeps other).mono fun _ => .inl⟩

/-- Settles O47: the writers of the screen by tick, and the run from another screen instruction by instruction. -/
theorem screenIsSeenOnlyThroughCollision : Obligations.ScreenIsSeenOnlyThroughCollision :=
  ⟨fun _ _ => step_fb_writers, fun _ _ _ other h => exec_from_other_screen other h⟩

end Sys2Proof.Machine
end

section
/-! SUPPORT. Single accesses in and out of range (R43, R44), what a block store leaves in memory (R139), and the statements about
memory and the fetch. -/

namespace Sys2Proof.Machine

/-! ### Single accesses (R43, R44) -/

theorem memRead_ok {s : State} {a : Nat} (h : a < Config.memSize) : memRead s a = .ok (s.readByte a) := if_pos h

theorem memRead_error {s : State} {a : Nat} (h : Config.memSize ≤ a) :
    memRead s a = .error (.outOfBoundsMemoryAccess a) := if_neg (Nat.not_lt.mpr h)

theorem memWrite_ok {s : State} {a : Nat} {b : Byte} (h : a < Config.memSize) :
    memWrite s a b = .ok (s.writeBytes a [b]) := if_pos h

theorem memWrite_error {s : State} {a : Nat} {b : Byte} (h : Config.memSize ≤ a) :
    memWrite s a b = .error (.outOfBoundsMemoryAccess a) := if_neg (Nat.not_lt.mpr h)

/-- The `j`-th byte of a store is read back at `a + j`. -/
theorem readByte_writeBytes_add (s : State) (a : Nat) {bs : List Byte} {j : Nat} (h : j < bs.length) :
    (s.writeBytes a bs).readByte (a + j) = bs[j] := by
  simp [State.writeBytes_readByte, h]

theorem writeBytes_singleton_keeps (s : State) (a : Nat) (b : Byte) :
    KeepsAllBut (fun p => p = .byte a) s (s.writeBytes a [b]) := by
  refine (s.writeBytes_keeps a [b]).mono ?_
  rintro _ ⟨q, rfl, hle, hlt⟩
  rw [Nat.le_antisymm (Nat.le_of_lt_succ hlt) hle]

/-- Settles O34: a write in range is a store of one byte, which is read back and leaves every other part alone. -/
theorem memoryAccessRules : Obligations.MemoryAccessRules := by
  intro s a b
  refine ⟨fun hout => ⟨memRead_error hout, memWrite_error hout⟩, fun hin => ?_⟩
  have ha : a < Config.memSize := Nat.lt_succ_of_le hin
  refine ⟨memRead_ok ha, s.writeBytes a [b], memWrite_ok ha, ?_, writeBytes_singleton_keeps s a b⟩
  rw [memRead_ok ha]
  exact congrArg Except.ok (readByte_writeBytes_add s a (bs := [b]) Nat.one_pos)

/-! ### Fetch and range check (R45, R46) -/

/-- Of two addresses in range, a fetch is the big-endian number of the two bytes (R45, R47). -/
theorem fetch_ok_toNat (s : State) {a : Nat} (h : a + 1 < Config.memSize) :
    ∃ w, fetch s a = .ok w ∧ w.toNat = 256 * (s.readByte a).toNat + (s.readByte (a + 1)).toNat :=
  ⟨_, fetch_ok h, wordOfBytes_toNat _ _⟩

/-- Settles O35: both bytes in range, the first out of range, or the second alone. -/
theorem fetchIsBigEndianAndBounded : Obligations.FetchIsBigEndianAndBounded := by
  intro s a
  refine ⟨fun hin => fetch_ok_toNat s (Nat.lt_succ_of_le hin), fetch_error_first, ?_⟩
  rintro rfl
  exact fetch_error_second rfl

/-- Settles O36: the range passes, or its lowest address outside memory is the greater of `a` and 4096. -/
theorem checkRangeNamesLowestAddress : Obligations.CheckRangeNamesLowestAddress := by
  intro a n
  refine ⟨fun hin => checkRange_ok (hin.imp_right Nat.lt_succ_of_le), fun hn hout => ?_⟩
  exact ⟨checkRange_error hn hout, Nat.le_max_left a 4096, by omega, fun b hab hb => by omega⟩

/-! ### A block store and the fetch after it (R52, R139) -/

/-- The state a block store in range leads to. -/
theorem exec_ldMemVx_next {s : State} {x : Reg} (h : s.index.toNat + x.val < Config.memSize) :
    exec (.ldMemVx x) s =
      .next ((s.writeBytes s.index.toNat (s.regRange x)).autoIndex (x.val + 1)).advance :=
  withRange_ok _ (.inr h)

/-- A block store at `a` leaves `V[r]` at `a + r`, for each register of its range. -/
theorem readByte_writeBytes_regRange (s : State) (a : Nat) {x r : Reg} (h : r ≤ x) :
    (s.writeBytes a (s.regRange x)).readByte (a + r.val) = s.readV r := by
  have hr : r.val < (s.regRange x).length := by
    rw [regRange_length]
    exact Nat.lt_succ_of_le h
  rw [readByte_writeBytes_add s a hr, regRange_getElem]

/-- After a block store, `V[r]` stands at `I + r`, for each register of its range (R139). -/
theorem readByte_of_exec_ldMemVx {s t : State} {x r : Reg} (h : exec (.ldMemVx x) s = .next t) (hr : r ≤ x) :
    t.readByte (s.index.toNat + r.val) = s.readV r := by
  obtain ⟨he, -⟩ := withRange_next h
  cases he
  rw [State.advance_readByte, State.autoIndex_readByte, readByte_writeBytes_regRange s _ hr]

/-- Settles O33: the first two bytes stored are `V0` and `V1`, and a fetch reads memory as it then stands. -/
theorem storedBytesAreFetched : Obligations.StoredBytesAreFetched := by
  intro s x hx hr
  obtain ⟨t, ht⟩ : ∃ t, exec (.ldMemVx x) s = .next t := ⟨_, exec_ldMemVx_next (Nat.lt_succ_of_le hr)⟩
  have h0 : t.readByte s.index.toNat = s.readV 0 := readByte_of_exec_ldMemVx ht (Fin.zero_le x)
  have h1 : t.readByte (s.index.toNat + 1) = s.readV 1 := readByte_of_exec_ldMemVx (r := 1) ht hx
  obtain ⟨w, hw, hnum⟩ := fetch_ok_toNat t (a := s.index.toNat) (Nat.lt_succ_of_le (by omega))
  rw [h0, h1] at hnum
  exact ⟨t, ht, w, hw, hnum⟩

end Sys2Proof.Machine
end

section
/-! SUPPORT. The decoder against the encoder (R69), the opcode map (R66) and the list of illegal words (R67). -/

namespace Sys2Proof

/-! ### The words R67 lists, by the field each family is keyed by (R65) -/

/-- The six classes of R67: the family, and its key outside the values that R66 gives a row. -/
def IllegalClass (w : Word) : Prop :=
  (fieldOp w = 0x0 ∧ w ∉ [0x00E0, 0x00EE]) ∨
  (fieldOp w = 0x5 ∧ fieldN w ∉ [0x0]) ∨
  (fieldOp w = 0x8 ∧ fieldN w ∉ [0x0, 0x1, 0x2, 0x3, 0x4, 0x5, 0x6, 0x7, 0xE]) ∨
  (fieldOp w = 0x9 ∧ fieldN w ∉ [0x0]) ∨
  (fieldOp w = 0xE ∧ fieldNN w ∉ [0x9E, 0xA1]) ∨
  (fieldOp w = 0xF ∧ fieldNN w ∉ [0x07, 0x0A, 0x15, 0x18, 0x1E, 0x29, 0x33, 0x55, 0x65])

theorem fieldOp_eq_iff (w : Word) (op : Nibble) : fieldOp w = op ↔ w.toNat / 4096 = op.toNat := by
  rw [← BitVec.toNat_inj, fieldOp_toNat]

theorem fieldN_eq_iff (w : Word) (n : Nibble) : fieldN w = n ↔ w.toNat % 16 = n.toNat := by
  rw [← BitVec.toNat_inj, fieldN_toNat]

theorem fieldNN_eq_iff (w : Word) (nn : Byte) : fieldNN w = nn ↔ w.toNat % 256 = nn.toNat := by
  rw [← BitVec.toNat_inj, fieldNN_toNat]

/-- The classes as the numbers of R67's table. -/
theorem illegalClass_iff (w : Word) : IllegalClass w ↔
    (w.toNat / 4096 = 0 ∧ w.toNat % 4096 ≠ 0x0E0 ∧ w.toNat % 4096 ≠ 0x0EE) ∨
    (w.toNat / 4096 = 5 ∧ w.toNat % 16 ≠ 0) ∨
    (w.toNat / 4096 = 8 ∧ w.toNat % 16 ∈ [0x8, 0x9, 0xA, 0xB, 0xC, 0xD, 0xF]) ∨
    (w.toNat / 4096 = 9 ∧ w.toNat % 16 ≠ 0) ∨
    (w.toNat / 4096 = 0xE ∧ w.toNat % 256 ∉ [0x9E, 0xA1]) ∨
    (w.toNat / 4096 = 0xF ∧ w.toNat % 256 ∉ [0x07, 0x0A, 0x15, 0x18, 0x1E, 0x29, 0x33, 0x55, 0x65]) := by
  simp only [IllegalClass, List.mem_cons, List.not_mem_nil, or_false, not_or, fieldOp_eq_iff, fieldN_eq_iff, fieldNN_eq_iff,
    ← BitVec.toNat_inj (n := 16), BitVec.ofNat_eq_ofNat, BitVec.reduceToNat]
  refine or_congr ?_ (or_congr Iff.rfl (or_congr ?_ (or_congr Iff.rfl (or_congr Iff.rfl Iff.rfl))))
  all_goals omega

/-! ### What the decoder answers (R70) -/

/-- A sound answer to a word: an instruction whose encoding is the word, or the rejection of a listed word, which it carries. -/
def SoundAnswer (w : Word) : Except DecodeError Instr → Prop
  | .ok i => encode i = w
  | .error e => e = .illegalWord w ∧ IllegalClass w

theorem encodeAddr_of_fields {w : Word} {op : Nibble} (ho : fieldOp w = op) : encodeAddr op (fieldNNN w) = w :=
  ho ▸ encodeAddr_fields w

theorem encodeXNN_of_fields {w : Word} {op : Nibble} {nn : Byte} (ho : fieldOp w = op) (hn : fieldNN w = nn) :
    encodeXNN op (fieldX w) nn = w := ho ▸ hn ▸ encodeXNN_fields w

theorem encodeXYN_of_fields {w : Word} {op n : Nibble} (ho : fieldOp w = op) (hn : fieldN w = n) :
    encodeXYN op (fieldX w) (fieldY w) n = w := ho ▸ hn ▸ encodeXYN_fields w

/-- Both branches of a decoder's test. -/
theorem SoundAnswer.ite {w : Word} {p : Prop} [Decidable p] {a b : Except DecodeError Instr}
    (ha : p → SoundAnswer w a) (hb : ¬ p → SoundAnswer w b) : SoundAnswer w (if p then a else b) := by
  split
  · exact ha ‹_›
  · exact hb ‹_›

theorem decodeSystem_sound {w : Word} (ho : fieldOp w = 0x0) : SoundAnswer w (decodeSystem w) :=
  .ite Eq.symm fun hcls => .ite Eq.symm fun hret => ⟨rfl, .inl ⟨ho, by
    simp only [List.mem_cons, hcls, hret, List.not_mem_nil, or_self, not_false_eq_true]⟩⟩

/-- Families 5 and 9: one instruction, of low nibble 0. -/
theorem decodeXY0_sound {w : Word} {i : Instr} (hi : fieldN w = 0 → encode i = w) (hw : fieldN w ∉ [0x0] → IllegalClass w) :
    SoundAnswer w (if fieldN w = 0 then .ok i else .error (.illegalWord w)) :=
  .ite hi fun hn => ⟨rfl, hw (List.mem_singleton.not.mpr hn)⟩

/-- Each test that succeeds reads the fields the encoder puts back; the last branch has failed every test of the family. -/
theorem decodeAlu_sound {w : Word} (ho : fieldOp w = 0x8) : SoundAnswer w (decodeAlu w) := by
  iterate 9 refine .ite (encodeXYN_of_fields ho) fun _ => ?_
  exact ⟨rfl, .inr (.inr (.inl ⟨ho, by
    simp only [List.mem_cons, *, List.not_mem_nil, or_self, not_false_eq_true]⟩))⟩

theorem decodeKeySkip_sound {w : Word} (ho : fieldOp w = 0xE) : SoundAnswer w (decodeKeySkip w) := by
  iterate 2 refine .ite (encodeXNN_of_fields ho) fun _ => ?_
  exact ⟨rfl, .inr (.inr (.inr (.inr (.inl ⟨ho, by
    simp only [List.mem_cons, *, List.not_mem_nil, or_self, not_false_eq_true]⟩))))⟩

theorem decodeMisc_sound {w : Word} (ho : fieldOp w = 0xF) : SoundAnswer w (decodeMisc w) := by
  iterate 9 refine .ite (encodeXNN_of_fields ho) fun _ => ?_
  exact ⟨rfl, .inr (.inr (.inr (.inr (.inr ⟨ho, by
    simp only [List.mem_cons, *, List.not_mem_nil, or_self, not_false_eq_true]⟩))))⟩

/-- Family by family, in the order the decoder branches. -/
theorem decode_sound (w : Word) : SoundAnswer w (decode w) :=
  .ite decodeSystem_sound fun _ =>
  .ite encodeAddr_of_fields fun _ =>
  .ite encodeAddr_of_fields fun _ =>
  .ite (encodeXNN_of_fields · rfl) fun _ =>
  .ite (encodeXNN_of_fields · rfl) fun _ =>
  .ite (fun ho => decodeXY0_sound (encodeXYN_of_fields ho) fun hn => .inr (.inl ⟨ho, hn⟩)) fun _ =>
  .ite (encodeXNN_of_fields · rfl) fun _ =>
  .ite (encodeXNN_of_fields · rfl) fun _ =>
  .ite decodeAlu_sound fun _ =>
  .ite (fun ho => decodeXY0_sound (encodeXYN_of_fields ho) fun hn => .inr (.inr (.inr (.inl ⟨ho, hn⟩)))) fun _ =>
  .ite encodeAddr_of_fields fun _ =>
  .ite encodeAddr_of_fields fun _ =>
  .ite (encodeXNN_of_fields · rfl) fun _ =>
  .ite (encodeXYN_of_fields · rfl) fun _ =>
  .ite decodeKeySkip_sound fun _ =>
  decodeMisc_sound (by bv_omega)

theorem encode_of_decode_ok {w : Word} {i : Instr} (h : decode w = .ok i) : encode i = w := by
  have hs := decode_sound w
  rwa [h] at hs

theorem illegal_of_decode_error {w : Word} {e : DecodeError} (h : decode w = .error e) :
    e = .illegalWord w ∧ IllegalClass w := by
  have hs := decode_sound w
  rwa [h] at hs

/-! ### Rows of the opcode map (R66) -/

theorem OpcodeRow.and_mask_of_selects {r : OpcodeRow} {w : Word} (h : r.selects w = true) : w &&& r.mask = r.pattern :=
  of_decide_eq_true h

/-- Two rows that differ in a bit both masks look at have no word in common. -/
theorem OpcodeRow.not_selects_both {r q : OpcodeRow} (h : r.pattern &&& q.mask ≠ q.pattern &&& r.mask) (w : Word) :
    ¬ (r.selects w = true ∧ q.selects w = true) := by
  rintro ⟨hr, hq⟩
  apply h
  rw [← and_mask_of_selects hr, ← and_mask_of_selects hq, BitVec.and_assoc, BitVec.and_assoc, BitVec.and_comm r.mask]

theorem opcodeMap_patterns_conflict : opcodeMap.Pairwise (fun r q => r.pattern &&& q.mask ≠ q.pattern &&& r.mask) := by
  decide

theorem opcodeMap_disjoint (w : Word) : opcodeMap.Pairwise (fun r q => ¬ (r.selects w = true ∧ q.selects w = true)) :=
  opcodeMap_patterns_conflict.imp fun h => OpcodeRow.not_selects_both h w

/-- The map answers by the row a word selects, whichever place it has in the list. -/
theorem decodeByMap_of_selects {r : OpcodeRow} {w : Word} (hr : r ∈ opcodeMap) (hs : r.selects w = true) :
    decodeByMap w = .ok (r.build w) := by
  obtain ⟨q, hq⟩ : ∃ q, opcodeMap.find? (fun r => r.selects w) = some q :=
    Option.isSome_iff_exists.mp (List.find?_isSome.mpr ⟨r, hr, hs⟩)
  have hsym : Std.Symm fun r q : OpcodeRow => ¬ (r.selects w = true ∧ q.selects w = true) := ⟨fun _ _ h => h ∘ And.symm⟩
  have hrq : r = q := by
    by_contra hne
    exact (opcodeMap_disjoint w).forall hr (List.mem_of_find?_eq_some hq) hne
      ⟨hs, List.find?_some (p := fun r : OpcodeRow => r.selects w) hq⟩
  rw [decodeByMap, hq, hrq]

theorem decodeByMap_of_selects_none {w : Word} (h : ∀ r ∈ opcodeMap, ¬ r.selects w = true) :
    decodeByMap w = .error (.illegalWord w) := by
  rw [decodeByMap, List.find?_eq_none.mpr h]

/-! ### The listed words select no row -/

section Selected
variable {r : OpcodeRow} {w : Word}

theorem fieldOp_of_selects (hm : fieldOp r.mask = 0xF) (hs : r.selects w = true) : fieldOp r.pattern = fieldOp w := by
  rw [← r.and_mask_of_selects hs, fieldOp, BitVec.extractLsb'_and]
  show fieldOp w &&& fieldOp r.mask = fieldOp w
  rw [hm]
  exact BitVec.and_allOnes

theorem fieldN_of_selects (hm : fieldN r.mask = 0xF) (hs : r.selects w = true) : fieldN r.pattern = fieldN w := by
  rw [← r.and_mask_of_selects hs, fieldN, BitVec.extractLsb'_and]
  show fieldN w &&& fieldN r.mask = fieldN w
  rw [hm]
  exact BitVec.and_allOnes

theorem fieldNN_of_selects (hm : fieldNN r.mask = 0xFF) (hs : r.selects w = true) : fieldNN r.pattern = fieldNN w := by
  rw [← r.and_mask_of_selects hs, fieldNN, BitVec.extractLsb'_and]
  show fieldNN w &&& fieldNN r.mask = fieldNN w
  rw [hm]
  exact BitVec.and_allOnes

end Selected

/-- No row's pattern is of a listed class. -/
theorem opcodeMap_pattern_legal : ∀ r ∈ opcodeMap, ¬ IllegalClass r.pattern := by
  unfold IllegalClass
  decide

/-- Every row's mask covers the family and the key of its family (R65). -/
theorem opcodeMap_mask_covers_key : ∀ r ∈ opcodeMap, fieldOp r.mask = 0xF ∧
    (fieldOp r.pattern = 0x0 → r.mask = 0xFFFF) ∧
    (fieldOp r.pattern = 0x5 ∨ fieldOp r.pattern = 0x8 ∨ fieldOp r.pattern = 0x9 → fieldN r.mask = 0xF) ∧
    (fieldOp r.pattern = 0xE ∨ fieldOp r.pattern = 0xF → fieldNN r.mask = 0xFF) := by decide

/-- A word agrees in its family and its key with the pattern of a row it selects, and that pattern is legal. -/
theorem not_illegal_of_selects {r : OpcodeRow} {w : Word} (hr : r ∈ opcodeMap) (hs : r.selects w = true) :
    ¬ IllegalClass w := by
  obtain ⟨hop, hword, hN, hNN⟩ := opcodeMap_mask_covers_key r hr
  have ho : fieldOp r.pattern = fieldOp w := fieldOp_of_selects hop hs
  rw [ho] at hword hN hNN
  have hw : fieldOp w = 0x0 → r.pattern = w := fun h => by
    rw [← r.and_mask_of_selects hs, hword h]
    exact BitVec.and_allOnes
  have hn := fun h => fieldN_of_selects (hN h) hs
  have hnn := fun h => fieldNN_of_selects (hNN h) hs
  intro hill
  apply opcodeMap_pattern_legal r hr
  unfold IllegalClass at hill ⊢
  rw [ho]
  refine hill.imp ?_ (.imp ?_ (.imp ?_ (.imp ?_ (.imp ?_ ?_)))) <;> rintro ⟨hfam, hkey⟩
  · exact ⟨hfam, hw hfam ▸ hkey⟩
  · exact ⟨hfam, hn (.inl hfam) ▸ hkey⟩
  · exact ⟨hfam, hn (.inr (.inl hfam)) ▸ hkey⟩
  · exact ⟨hfam, hn (.inr (.inr hfam)) ▸ hkey⟩
  · exact ⟨hfam, hnn (.inl hfam) ▸ hkey⟩
  · exact ⟨hfam, hnn (.inr hfam) ▸ hkey⟩

/-! ### Encodings select rows -/

theorem encode_selects_row : ∀ i : Instr, Laws.EncodeRow.Statement i
  | .cls => Laws.EncodeRow.cls
  | .ret => Laws.EncodeRow.ret
  | .jp a => Laws.EncodeRow.jp a
  | .call a => Laws.EncodeRow.call a
  | .seImm x nn => Laws.EncodeRow.seImm x nn
  | .sneImm x nn => Laws.EncodeRow.sneImm x nn
  | .seReg x y => Laws.EncodeRow.seReg x y
  | .ldImm x nn => Laws.EncodeRow.ldImm x nn
  | .addImm x nn => Laws.EncodeRow.addImm x nn
  | .ld x y => Laws.EncodeRow.ld x y
  | .or x y => Laws.EncodeRow.or x y
  | .and x y => Laws.EncodeRow.and x y
  | .xor x y => Laws.EncodeRow.xor x y
  | .add x y => Laws.EncodeRow.add x y
  | .sub x y => Laws.EncodeRow.sub x y
  | .shr x y => Laws.EncodeRow.shr x y
  | .subn x y => Laws.EncodeRow.subn x y
  | .shl x y => Laws.EncodeRow.shl x y
  | .sneReg x y => Laws.EncodeRow.sneReg x y
  | .ldI a => Laws.EncodeRow.ldI a
  | .jpV0 a => Laws.EncodeRow.jpV0 a
  | .rnd x nn => Laws.EncodeRow.rnd x nn
  | .drw x y n => Laws.EncodeRow.drw x y n
  | .skp x => Laws.EncodeRow.skp x
  | .sknp x => Laws.EncodeRow.sknp x
  | .ldVxDt x => Laws.EncodeRow.ldVxDt x
  | .ldVxK x => Laws.EncodeRow.ldVxK x
  | .ldDtVx x => Laws.EncodeRow.ldDtVx x
  | .ldStVx x => Laws.EncodeRow.ldStVx x
  | .addIVx x => Laws.EncodeRow.addIVx x
  | .ldFVx x => Laws.EncodeRow.ldFVx x
  | .ldBVx x => Laws.EncodeRow.ldBVx x
  | .ldMemVx x => Laws.EncodeRow.ldMemVx x
  | .ldVxMem x => Laws.EncodeRow.ldVxMem x

theorem decodeByMap_encode (i : Instr) : decodeByMap (encode i) = .ok i := by
  obtain ⟨r, hr, hs, hb⟩ := encode_selects_row i
  rw [decodeByMap_of_selects hr hs, hb]

theorem decodeByMap_of_illegal {w : Word} (h : IllegalClass w) : decodeByMap w = .error (.illegalWord w) :=
  decodeByMap_of_selects_none fun _ hr hs => not_illegal_of_selects hr hs h

theorem decode_eq_decodeByMap (w : Word) : decode w = decodeByMap w := by
  cases hd : decode w with
  | ok i => rw [← encode_of_decode_ok hd, decodeByMap_encode]
  | error e =>
    obtain ⟨rfl, hill⟩ := illegal_of_decode_error hd
    rw [decodeByMap_of_illegal hill]

theorem decode_encode (i : Instr) : decode (encode i) = .ok i :=
  (decode_eq_decodeByMap _).trans (decodeByMap_encode i)

theorem decode_error_iff (w : Word) : (∃ e, decode w = .error e) ↔ IllegalClass w := by
  constructor
  · rintro ⟨e, he⟩
    exact (illegal_of_decode_error he).2
  · intro h
    exact ⟨.illegalWord w, (decode_eq_decodeByMap w).trans (decodeByMap_of_illegal h)⟩

/-! ### The statements -/

/-- Settles O1: an encoding selects a row that gives the instruction back, and every answer of the decoder encodes to its word. -/
theorem decodeInvertsEncode : Obligations.DecodeInvertsEncode :=
  ⟨decode_encode, fun _ _ => encode_of_decode_ok⟩

/-- Settles O2: the decoder answers as the map does, and no two patterns of the map agree under both their masks. -/
theorem opcodeMapAgreesWithDecoder : Obligations.OpcodeMapAgreesWithDecoder :=
  fun w => ⟨decode_eq_decodeByMap w, opcodeMap_disjoint w⟩

/-- Settles O3: the classes by number are the classes by field, and those are the words that select no row. -/
theorem illegalWordsAreTheListedOnes : Obligations.IllegalWordsAreTheListedOnes :=
  fun w => ⟨(decode_error_iff w).trans (illegalClass_iff w), fun _ he => (illegal_of_decode_error he).1⟩

end Sys2Proof
end

section
/-! SUPPORT. System and control flow (R80 to R84): words by number, the fetch that fails at the end of memory, a clear screen, the
two outcomes of `RET` and of `CALL`, and a jump to its own address, which repeats for ever (R81, R159). -/

namespace Sys2Proof.Machine

/-! ### Words by number (R66) -/

/-- Decoding inverts encoding, so an instruction's word as a number is all there is to show. -/
theorem encodedAs_of_encode_toNat {i : Instr} {w : Nat} (h : (encode i).toNat = w) : EncodedAs i w := by
  have he : encode i = BitVec.ofNat 16 w := by rw [← h, BitVec.ofNat_toNat, BitVec.setWidth_eq]
  exact ⟨he, he ▸ decode_encode i⟩

/-! ### The fetch at the end of memory (R45, R173) -/

theorem fetch_error {s : State} {a : Nat} (h : Config.memSize ≤ a + 1) :
    fetch s a = .error (.outOfBoundsMemoryAccess (max a Config.memSize)) := by
  rcases Nat.lt_or_ge a Config.memSize with hlt | hge
  · have hlast : a + 1 = Config.memSize := Nat.le_antisymm hlt h
    rw [fetch_error_second hlast, hlast, Nat.max_eq_right hlt.le]
  · rw [fetch_error_first hge, Nat.max_eq_left hge]

/-- At 4095 and at 4096 the first address past memory is the same. -/
theorem fetch_error_edge {s : State} {a : Nat} (h : 4095 ≤ a) (h' : a ≤ 4096) :
    fetch s a = .error (.outOfBoundsMemoryAccess 4096) := by
  have hmax : max a Config.memSize = 4096 := Nat.max_eq_right h'
  rw [fetch_error (Nat.succ_le_succ h), hmax]

/-! ### `CLS` (R80) -/

@[simp] theorem pixel_clearAll (fb : Framebuffer) (x y : Nat) : pixel (clearAll fb) x y = false := by
  simp only [pixel, clearAll, List.getD_eq_getElem?_getD, List.getElem?_map]
  cases fb[y]? with
  | none => rfl
  | some row => simp

/-- Settles O6: the screen is replaced by a clear one of the same size, and `pc` moves on. -/
theorem clearScreenClearsEveryPixel : Obligations.ClearScreenClearsEveryPixel := by
  refine ⟨encodedAs_of_encode_toNat rfl, fun s => ⟨_, rfl, rfl, pixel_clearAll s.fb, clearAll_size s.fb, ?_⟩⟩
  exact (s.setFb_keeps _).trans (State.advance_keeps _) (fun _ => .inr) (fun _ => .inl)

/-! ### Jumps (R81, R84) -/

/-- Settles O8: the address is put in `pc` as it stands, and 0xFFF leaves only one byte to fetch. -/
theorem jumpGoesToAddress : Obligations.JumpGoesToAddress := by
  intro addr
  refine ⟨encodedAs_of_encode_toNat (encodeAddr_toNat 0x1 addr), fun s => ?_⟩
  have hpc : (s.setPc (zext12 addr)).pc.toNat = addr.toNat := zext12_toNat addr
  exact ⟨_, rfl, hpc, fun hedge => fetch_error_edge (by omega) (by omega), s.setPc_keeps _⟩

/-- The sum of an address and a register stays below 2^16, so `pc` holds it unreduced (R84). -/
theorem zext12_add_zext8_toNat (a : Addr12) (b : Byte) : (zext12 a + zext8 b).toNat = a.toNat + b.toNat := by
  rw [BitVec.toNat_add, zext12_toNat, zext8_toNat]
  omega

/-- Settles O10: the sum fits `pc`, and a fetch from 4095 on leaves memory. -/
theorem offsetJumpAddsV0 : Obligations.OffsetJumpAddsV0 := fun addr =>
  ⟨encodedAs_of_encode_toNat (encodeAddr_toNat 0xB addr), fun s =>
    ⟨_, rfl, zext12_add_zext8_toNat addr (s.readV 0), fun hedge => fetch_error (Nat.succ_le_succ hedge), s.setPc_keeps _⟩⟩

/-! ### `RET` (R83, R176) -/

theorem exec_ret_empty {s : State} (h : s.sp = 0) : exec .ret s = .fault .stackUnderflow := if_pos h

theorem exec_ret_next {s : State} (h : 0 < s.sp) : exec .ret s = .next (s.pop.setPc s.newest) := if_neg h.ne'

theorem newest_of_getElem? {s : State} {w : Word} (h : s.stack[s.sp - 1]? = some w) : s.newest = w := by
  rw [State.newest, List.getD_eq_getElem?_getD, h, Option.getD_some]

/-- Settles O7: on an empty stack the guard fails; else the newest address is popped into `pc`. -/
theorem returnPopsNewestAddress : Obligations.ReturnPopsNewestAddress := by
  refine ⟨encodedAs_of_encode_toNat rfl, fun s => ⟨exec_ret_empty, fun hsp => ?_⟩⟩
  refine ⟨_, exec_ret_next hsp, rfl, fun _ => newest_of_getElem?, fetch_error_edge, ?_⟩
  exact s.pop_keeps.trans (State.setPc_keeps _ _) (fun _ => .inr) (fun _ => .inl)

/-! ### `CALL` (R82, R175) -/

theorem exec_call_full {s : State} (addr : Addr12) (h : s.cfg.stackCapacity ≤ s.sp) :
    exec (.call addr) s = .fault .stackOverflow := if_pos h

theorem exec_call_next {s : State} (addr : Addr12) (h : s.sp < s.cfg.stackCapacity) :
    exec (.call addr) s = .next ((s.push (s.pc + 2)).setPc (zext12 addr)) := if_neg (Nat.not_le.mpr h)

/-- Settles O9: on a full stack the guard fails; else the return address is pushed and `pc` is set. -/
theorem callPushesReturnAddress : Obligations.CallPushesReturnAddress := by
  intro addr
  refine ⟨encodedAs_of_encode_toNat (encodeAddr_toNat 0x2 addr), fun s => ⟨fun hfull => exec_call_full addr hfull.ge, ?_⟩⟩
  intro hsp
  refine ⟨_, exec_call_next addr hsp, fun hlen => ?_, rfl, zext12_toNat addr, ?_⟩
  · exact List.getElem?_set_self (hlen ▸ hsp)
  · exact (s.push_keeps _).trans (State.setPc_keeps _ _) (fun _ => .inr) (fun _ => .inl)

/-! ### A jump to its own address (R81, R159) -/

/-- The machine runs, and the instruction at `pc` is a jump to `pc`. -/
structure AtSelfJump (addr : Addr12) (s : State) : Prop where
  running : s.kw = .running
  at_target : s.pc.toNat = addr.toNat
  fetches : s.fetchDecode = .ok (.jp addr)

section SelfJump

variable {addr : Addr12} {s : State}

/-- The jump writes the `pc` that is there, so its tick is the end of a tick and nothing more. -/
theorem AtSelfJump.step_eq (h : AtSelfJump addr s) : step s = .next s.endTick := by
  have hpc : zext12 addr = s.pc := BitVec.eq_of_toNat_eq ((zext12_toNat addr).trans h.at_target.symm)
  have hexec : exec (.jp addr) s = .next s := by rw [exec, execJp, hpc, State.setPc]
  rw [step_of_fetchDecode h.running h.fetches, hexec, onNext]

/-- The end of a tick touches neither `kw`, nor `pc`, nor memory. -/
theorem AtSelfJump.endTick (h : AtSelfJump addr s) : AtSelfJump addr s.endTick where
  running := h.running
  at_target := h.at_target
  fetches := (fetchDecode_congr rfl fun _ => rfl).trans h.fetches

/-- However many ticks succeed, the machine stays at the jump, and only the ends of ticks have written. -/
theorem AtSelfJump.of_reaches {t : State} (h : AtSelfJump addr s) (ht : Reaches s t) :
    AtSelfJump addr t ∧ KeepsAllBut (fun p => p = .delay ∨ p = .sound ∨ p = .input) s t := by
  induction ht with
  | refl => exact ⟨h, KeepsAllBut.refl _ s⟩
  | @tick u v _ hv ih =>
    obtain ⟨hu, hkeeps⟩ := ih
    obtain rfl : u.endTick = v := Host.Outcome.next.inj (hu.step_eq.symm.trans hv)
    exact ⟨hu.endTick, hkeeps.trans u.endTick_keeps (fun _ => id) (fun _ => id)⟩

end SelfJump

/-- Settles O57: every state reached is again at the jump, and from there a tick succeeds. -/
theorem selfJumpRunsForever : Obligations.SelfJumpRunsForever := by
  intro s addr hkw hpc hfetch
  have h : AtSelfJump addr s := ⟨hkw, hpc, hfetch⟩
  exact ⟨fun t ht => ⟨_, (h.of_reaches ht).1.step_eq⟩, fun t ht => (h.of_reaches ht).2⟩

end Sys2Proof.Machine
end

section
/-! SUPPORT. The conditional skips (R90 to R94): words of formats XNN and XY by number, the two values of `pc` after a comparison,
and the one shape all six skips have. -/

namespace Sys2Proof.Machine

/-! ### Words by number (R62) -/

theorem encodedAs_of_encodeXNN {i : Instr} (op : Nibble) {x : Reg} {nn : Byte} (h : encode i = encodeXNN op x nn) :
    EncodedAs i (op.toNat * 4096 + 256 * x.val + nn.toNat) :=
  encodedAs_of_encode_toNat (by rw [h, encodeXNN_toNat, Nat.mul_comm x.val])

theorem encodedAs_of_encodeXYN {i : Instr} (op n : Nibble) {x y : Reg} (h : encode i = encodeXYN op x y n) :
    EncodedAs i (op.toNat * 4096 + 256 * x.val + 16 * y.val + n.toNat) :=
  encodedAs_of_encode_toNat (by rw [h, encodeXYN_toNat, Nat.mul_comm x.val, Nat.mul_comm y.val])

/-! ### Skips on a comparison (R90 to R93) -/

theorem State.skipIf_beq_pc (s : State) (a b : Byte) :
    (s.skipIf (a == b)).pc = if a.toNat = b.toNat then s.pc + 4 else s.pc + 2 := by
  rw [State.skipIf_pc]
  exact if_congr (beq_iff_eq.trans BitVec.toNat_inj.symm) rfl rfl

theorem State.skipIf_bne_pc (s : State) (a b : Byte) :
    (s.skipIf (a != b)).pc = if a.toNat = b.toNat then s.pc + 2 else s.pc + 4 := by
  rw [State.skipIf_pc]
  exact (if_congr (bne_iff_ne.trans (not_congr BitVec.toNat_inj.symm)) rfl rfl).trans (ite_not ..)

/-- Settles O12: both are a skip on the comparison of `V[X]` with `NN`. -/
theorem immediateSkipsCompare : Obligations.ImmediateSkipsCompare := by
  intro x nn
  refine ⟨encodedAs_of_encodeXNN 0x3 rfl, encodedAs_of_encodeXNN 0x4 rfl, fun s => ⟨?_, ?_⟩⟩
  · exact ⟨_, rfl, s.skipIf_beq_pc _ _, s.skipIf_keeps _⟩
  · exact ⟨_, rfl, s.skipIf_bne_pc _ _, s.skipIf_keeps _⟩

/-- Settles O13: both are a skip on the comparison of `V[X]` with `V[Y]`. -/
theorem registerSkipsCompare : Obligations.RegisterSkipsCompare := by
  intro x y
  refine ⟨encodedAs_of_encodeXYN 0x5 0x0 rfl, encodedAs_of_encodeXYN 0x9 0x0 rfl, fun s => ⟨?_, ?_⟩⟩
  · exact ⟨_, rfl, s.skipIf_beq_pc _ _, s.skipIf_keeps _⟩
  · exact ⟨_, rfl, s.skipIf_bne_pc _ _, s.skipIf_keeps _⟩

/-! ### What the six skips have in common (R94) -/

theorem exec_of_isSkip {i : Instr} (s : State) (hi : isSkip i = true) : ∃ m, exec i s = .next (s.skipIf m) := by
  cases i with
  | seImm | sneImm | seReg | sneReg | skp | sknp => exact ⟨_, rfl⟩
  | _ => cases hi

theorem State.skipIf_pc_cases (s : State) (m : Bool) : (s.skipIf m).pc = s.pc + 2 ∨ (s.skipIf m).pc = s.pc + 4 := by
  cases m with
  | false => exact .inl rfl
  | true => exact .inr rfl

/-- Settles O15: each of the six is a `skipIf`, and a match at 4092 leaves 4096, the first address outside memory. -/
theorem skipsWriteOnlyThePc : Obligations.SkipsWriteOnlyThePc := by
  intro i s hi
  obtain ⟨m, hm⟩ := exec_of_isSkip s hi
  refine ⟨_, hm, s.skipIf_pc_cases m, s.skipIf_keeps m, fun hpc hmatch => ?_⟩
  have hend : (s.skipIf m).pc = 4096 := by rw [hmatch, hpc]; rfl
  have hnum : (s.skipIf m).pc.toNat = 4096 := congrArg BitVec.toNat hend
  exact ⟨hend, fetch_error_edge (by omega) hnum.le⟩

end Sys2Proof.Machine
end

section
/-! SUPPORT. Register load and ALU (R100 to R110): words of the `8XYn` group by number, and what an instruction that finishes with
a result, or with a result and a flag, leaves behind. -/

namespace Sys2Proof.Machine

/-- The `8XYn` group with the fourth digit next to the first, as the statements write it (R66). -/
theorem encodedAs_of_encodeAlu {i : Instr} (n : Nibble) {x y : Reg} (h : encode i = encodeXYN 0x8 x y n) :
    EncodedAs i (0x8000 + n.toNat + 256 * x.val + 16 * y.val) := by
  have hw := encodedAs_of_encodeXYN 0x8 n h
  rwa [Nat.add_right_comm _ _ n.toNat, Nat.add_right_comm _ _ n.toNat] at hw

/-! ### A result without a flag (R100 to R105) -/

theorem readV_writeV_advance (s : State) (x : Reg) (r : Byte) : ((s.writeV x r).advance).readV x = r := by
  rw [State.advance_readV, State.readV_writeV_self]

/-- Settles O16: both finish with one byte in `V[X]`, and addition of bytes is modulo 256. -/
theorem immediateLoadAndAdd : Obligations.ImmediateLoadAndAdd := by
  intro x nn
  refine ⟨encodedAs_of_encodeXNN 0x6 rfl, encodedAs_of_encodeXNN 0x7 rfl, fun s => ⟨?load, ?add⟩⟩
  case load => exact ⟨_, rfl, readV_writeV_advance s x nn, rfl, writeV_advance_keeps s x nn⟩
  case add =>
    refine ⟨_, rfl, ?_, rfl, writeV_advance_keeps s x _⟩
    rw [readV_writeV_advance, BitVec.toNat_add]

/-- The shape of the logic operations; what is left to each of them is its result bit by bit. -/
theorem finish_writes_bits (s : State) (x : Reg) {r : Byte} {bit : Nat → Bool} (hr : ∀ k, r.getLsbD k = bit k) :
    ∃ t, s.finish x r = .next t ∧ t.pc = s.pc + 2 ∧ (∀ k, (t.readV x).getLsbD k = bit k) ∧
      KeepsAllBut (fun p => p = .pc ∨ p = .reg x) s t := by
  refine ⟨_, rfl, rfl, fun k => ?_, writeV_advance_keeps s x r⟩
  rw [readV_writeV_advance, hr]

/-- Settles O17: all four finish with one byte in `V[X]`, read bit by bit for the logic operations. -/
theorem copyAndLogicWriteOnlyDestination : Obligations.CopyAndLogicWriteOnlyDestination := by
  intro x y
  refine ⟨encodedAs_of_encodeAlu 0x0 rfl, encodedAs_of_encodeAlu 0x1 rfl, encodedAs_of_encodeAlu 0x2 rfl,
    encodedAs_of_encodeAlu 0x3 rfl, fun s => ⟨?copy, ?or, ?and, ?xor⟩⟩
  case copy => exact ⟨_, rfl, readV_writeV_advance s x _, rfl, writeV_advance_keeps s x _⟩
  case or => exact finish_writes_bits s x fun _ => BitVec.getLsbD_or
  case and => exact finish_writes_bits s x fun _ => BitVec.getLsbD_and
  case xor => exact finish_writes_bits s x fun _ => BitVec.getLsbD_xor

/-! ### A result and a flag (R106 to R110, R112) -/

/-- Every flag-writing ALU instruction answers in this shape; what is left to each of them is its result and its flag as numbers. -/
theorem finishFlag_writes (s : State) {x : Reg} {r f : Byte} {result flag : Nat} (hr : r.toNat = result) (hf : f.toNat = flag) :
    ∃ t, s.finishFlag x r f = .next t ∧ t.pc = s.pc + 2 ∧ (x ≠ 15 → (t.readV x).toNat = result) ∧ (t.readV 15).toNat = flag ∧
      KeepsAllBut (fun p => p = .pc ∨ p = .reg x ∨ p = .reg 15) s t := by
  refine ⟨_, rfl, rfl, fun hx => ?_, ?_, writeWithFlag_advance_keeps s x r f⟩
  · rw [State.advance_readV, writeWithFlag_readV_ne s r f hx, hr]
  · rw [State.advance_readV, writeWithFlag_readV_vf, hf]

/-- Settles O18: the sum is modulo 256, and the flag is the carry out of it. -/
theorem addSetsCarry : Obligations.AddSetsCarry := fun _ _ =>
  ⟨encodedAs_of_encodeAlu 0x4 rfl, fun s => finishFlag_writes s (BitVec.toNat_add ..) (carryOut_toNat ..)⟩

/-- Settles O19: the two differ in the order of their operands only. -/
theorem subtractionsSetNotBorrow : Obligations.SubtractionsSetNotBorrow := by
  intro x y
  refine ⟨encodedAs_of_encodeAlu 0x5 rfl, encodedAs_of_encodeAlu 0x7 rfl, ?_⟩
  rintro s _ _ rfl rfl
  exact ⟨finishFlag_writes s (sub_toNat ..) (noBorrow_toNat ..), finishFlag_writes s (sub_toNat ..) (noBorrow_toNat ..)⟩

theorem ushiftRight_one_toNat (a : Byte) : (a >>> 1).toNat = a.toNat / 2 := by
  rw [BitVec.toNat_ushiftRight, Nat.shiftRight_eq_div_pow, Nat.pow_one]

theorem shiftLeft_one_toNat (a : Byte) : (a <<< 1).toNat = 2 * a.toNat % 256 := by
  rw [BitVec.toNat_shiftLeft, Nat.shiftLeft_eq, Nat.pow_one, Nat.mul_comm]

/-- Settles O20: one place right is half, one place left is double, and neither looks at `Y`. -/
theorem shiftsMoveOneBitOut : Obligations.ShiftsMoveOneBitOut := fun _ _ =>
  ⟨encodedAs_of_encodeAlu 0x6 rfl, encodedAs_of_encodeAlu 0xE rfl, fun s =>
    ⟨finishFlag_writes s (ushiftRight_one_toNat _) (bitOutRight_toNat _),
      finishFlag_writes s (shiftLeft_one_toNat _) (bitOutLeft_toNat _)⟩⟩

end Sys2Proof.Machine
end

section
/-! SUPPORT. Index load, random number and draw (R120 to R123, R136, R137): words by number, the two outcomes of `DRW`, and what a
draw leaves on a screen of the configured size, told through the pixels its sprite covers. -/

namespace Sys2Proof.Machine

/-! ### Writers of the index register (R120, R136, R137) -/

/-- A word of family F with its low byte next to the first digit, as the statements write it (R66). -/
theorem encodedAs_of_encodeMisc {i : Instr} (nn : Byte) {x : Reg} (h : encode i = encodeXNN 0xF x nn) :
    EncodedAs i (0xF000 + nn.toNat + 256 * x.val) := by
  have hw := encodedAs_of_encodeXNN 0xF h
  rwa [Nat.add_right_comm] at hw

theorem setIndex_advance_keeps (s : State) (w : Word) :
    KeepsAllBut (fun p => p = .pc ∨ p = .index) s (s.setIndex w).advance :=
  (s.setIndex_keeps w).trans (State.advance_keeps _) (fun _ => .inr) (fun _ => .inl)

theorem add_zext8_toNat (w : Word) (b : Byte) : (w + zext8 b).toNat = (w.toNat + b.toNat) % 65536 := by
  rw [BitVec.toNat_add, zext8_toNat]

/-- R5 keeps the font below `PROGRAM_ORIGIN`, so every glyph's address fits in 16 bits. -/
theorem glyphAddress_toNat {c : Config} (h : c.wf = true) (d : Fin 16) :
    (glyphAddress c d).toNat = c.fontBase + d.val * c.glyphSize := by
  obtain ⟨-, hfont, horigin, -⟩ := c.wf_iff.mp h
  have hd : d.val * c.glyphSize ≤ 16 * c.glyphSize := Nat.mul_le_mul_right _ d.isLt.le
  rw [glyphAddress, BitVec.toNat_ofNat]
  exact Nat.mod_eq_of_lt (by omega)

/-- Settles O22: each of the three puts one word in `I`; the glyph's address is not reduced, for R5 bounds the font. -/
theorem indexRegisterWrites : Obligations.IndexRegisterWrites := by
  refine ⟨fun addr => ⟨encodedAs_of_encode_toNat (encodeAddr_toNat 0xA addr), fun s => ?load⟩, fun x =>
    ⟨encodedAs_of_encodeMisc 0x1E rfl, encodedAs_of_encodeMisc 0x29 rfl, fun s => ⟨?add, ?glyph⟩⟩⟩
  case load => exact ⟨_, rfl, zext12_toNat addr, rfl, setIndex_advance_keeps s _⟩
  case add => exact ⟨_, rfl, add_zext8_toNat s.index (s.readV x), rfl, setIndex_advance_keeps s _⟩
  case glyph =>
    refine ⟨_, rfl, rfl, fun hwf => ?_, setIndex_advance_keeps s _⟩
    rw [State.advance_index, State.setIndex_index, glyphAddress_toNat hwf, lowNibble_val]

/-! ### `RND` (R25, R121) -/

theorem nextRandom_toNat (c : Config) (r : Byte) :
    (nextRandom c r).toNat = (c.rngMul.toNat * r.toNat + c.rngInc.toNat) % 256 := by
  rw [nextRandom, BitVec.toNat_add, BitVec.toNat_mul, Nat.mod_add_mod]

theorem setRng_writeV_advance_keeps (s : State) (x : Reg) (r b : Byte) :
    KeepsAllBut (fun p => p = .pc ∨ p = .reg x ∨ p = .random) s ((s.setRng r).writeV x b).advance :=
  (s.setRng_keeps r).trans (writeV_advance_keeps _ x b) (fun _ h => .inr (.inr h)) (fun _ => .imp_right .inl)

/-- Settles O23: the generator takes its step whatever the mask is, and `V[X]` gets the new value under the mask. -/
theorem randomByteUnderMask : Obligations.RandomByteUnderMask := by
  intro x nn
  refine ⟨encodedAs_of_encodeXNN 0xC rfl, fun s => ?_⟩
  refine ⟨_, rfl, rfl, nextRandom_toNat s.cfg s.rng, fun k => ?_, setRng_writeV_advance_keeps s x _ _⟩
  rw [readV_writeV_advance, BitVec.getLsbD_and]
  rfl

/-! ### The two outcomes of `DRW` (R122) -/

/-- The state a `DRW` in range leaves. -/
def State.afterDraw (s : State) (x y : Reg) (n : Nibble) : State :=
  ((s.setFb (s.drawn x y n).1).writeV Reg.vf (flagByte (s.drawn x y n).2)).advance

theorem exec_drw_next {s : State} (x y : Reg) {n : Nibble} (h : n.toNat = 0 ∨ s.index.toNat + n.toNat - 1 < Config.memSize) :
    exec (.drw x y n) s = .next (s.afterDraw x y n) := withRange_ok _ h

theorem exec_drw_fault {s : State} (x y : Reg) {n : Nibble} (hn : n.toNat ≠ 0)
    (h : Config.memSize ≤ s.index.toNat + n.toNat - 1) :
    exec (.drw x y n) s = .fault (.outOfBoundsMemoryAccess (max s.index.toNat Config.memSize)) := withRange_fault _ hn h

/-- A `DRW` that succeeds was in range. -/
theorem of_exec_drw_next {s t : State} {x y : Reg} {n : Nibble} (h : exec (.drw x y n) s = .next t) :
    t = s.afterDraw x y n ∧ (n.toNat = 0 ∨ s.index.toNat + n.toNat - 1 < Config.memSize) := by
  obtain ⟨he, hr⟩ := withRange_next h
  cases he
  exact ⟨rfl, hr⟩

theorem afterDraw_keeps (s : State) (x y : Reg) (n : Nibble) :
    KeepsAllBut (fun p => p = .pc ∨ p = .screen ∨ p = .reg 15) s (s.afterDraw x y n) :=
  (s.setFb_keeps _).trans (writeV_advance_keeps _ Reg.vf _) (fun _ h => .inr (.inl h)) (fun _ => .imp_right .inr)

/-! ### The pixels a draw turns over -/

/-- The pixels a `DRW` turns over, in the order it visits them. -/
def State.drawTargets (s : State) (x y : Reg) (n : Nibble) : List (Nat × Nat) :=
  spriteTargets s.cfg (startColumn s.cfg (s.readV x)) (startRow s.cfg (s.readV y)) (s.readBytes s.index.toNat n.toNat)

/-- `SpriteCovers` of the sprite a `DRW` draws, at the place it draws it. -/
def State.DrawCovers (s : State) (x y : Reg) (n : Nibble) (px py : Nat) : Prop :=
  SpriteCovers s.cfg (fun r => s.readByte (s.index.toNat + r)) ((s.readV x).toNat % s.cfg.displayWidth)
    ((s.readV y).toNat % s.cfg.displayHeight) n.toNat px py

theorem mem_drawTargets {s : State} {x y : Reg} {n : Nibble} {px py : Nat} :
    (px, py) ∈ s.drawTargets x y n ↔ s.DrawCovers x y n px py :=
  mem_spriteTargets_iff_covers (s.readBytes_length _ _) (fun r h => s.readBytes_getElem _ _ r h)

theorem afterDraw_fb (s : State) (x y : Reg) (n : Nibble) : (s.afterDraw x y n).fb = flipAll s.fb (s.drawTargets x y n) :=
  drawSprite_fst _ _ _ _ _

/-! ### A draw on a screen of the configured size -/

/-- R5's bounds on the screen, and the size R22 gives it: all of the invariant that a draw's pixels and flag ask for. -/
structure ScreenFits (c : Config) (fb : Framebuffer) : Prop where
  wide : 8 ≤ c.displayWidth
  high : 15 ≤ c.displayHeight
  rows : fb.length = c.displayHeight
  columns : ∀ row ∈ fb, row.length = c.displayWidth

theorem State.Inv.screenFits {s : State} (h : s.Inv) : ScreenFits s.cfg s.fb := by
  obtain ⟨-, -, -, -, hwide, hhigh⟩ := s.cfg.wf_iff.mp h.cfg_wf
  exact ⟨hwide, hhigh, h.fb_height, h.fb_width⟩

theorem ScreenFits.afterDraw {s : State} (h : ScreenFits s.cfg s.fb) (x y : Reg) (n : Nibble) :
    ScreenFits s.cfg (s.afterDraw x y n).fb where
  wide := h.wide
  high := h.high
  rows := (length_eq_of_size (drawn_size s x y n)).trans h.rows
  columns := width_of_size (drawn_size s x y n) h.columns

section Draw

variable {s : State} (h : ScreenFits s.cfg s.fb) (x y : Reg) (n : Nibble)
include h

/-- A sprite has at most 15 rows of 8 pixels, so it does not meet itself (R5, R122). -/
theorem drawTargets_nodup : (s.drawTargets x y n).Nodup := by
  have hrows : (s.readBytes s.index.toNat n.toNat).length ≤ s.cfg.displayHeight := by
    have hhigh := h.high
    have hn := n.isLt
    rw [State.readBytes_length]
    omega
  exact spriteTargets_nodup h.wide hrows

theorem drawTargets_inScreen : ∀ p ∈ s.drawTargets x y n, InScreen s.fb p.1 p.2 := by
  intro p hp
  obtain ⟨_, _, -, _, -, -, hplace⟩ := mem_spriteTargets.mp hp
  have hwide := h.wide
  have hhigh := h.high
  obtain ⟨hx, hy⟩ := placePixel_lt (by omega) (by omega) hplace
  exact inScreen_of_size h.rows h.columns hx hy

theorem pixel_afterDraw_of_covers {px py : Nat} (hc : s.DrawCovers x y n px py) :
    pixel (s.afterDraw x y n).fb px py = !pixel s.fb px py := by
  rw [afterDraw_fb, pixel_flipAll s.fb px py (drawTargets_nodup h x y n) (drawTargets_inScreen h x y n),
    if_pos (mem_drawTargets.mpr hc)]

theorem pixel_afterDraw_of_not_covers {px py : Nat} (hc : ¬ s.DrawCovers x y n px py) :
    pixel (s.afterDraw x y n).fb px py = pixel s.fb px py := by
  rw [afterDraw_fb, pixel_flipAll s.fb px py (drawTargets_nodup h x y n) (drawTargets_inScreen h x y n),
    if_neg (mt mem_drawTargets.mp hc)]

/-- The collision a draw reports: a pixel it covers was lit. -/
theorem drawn_collision_iff : (s.drawn x y n).2 = true ↔ ∃ px py, s.DrawCovers x y n px py ∧ pixel s.fb px py = true := by
  have hfold := foldl_drawPixel_snd s.fb false (drawTargets_nodup h x y n) (drawTargets_inScreen h x y n)
  simp only [Bool.false_eq_true, false_or, Prod.exists, mem_drawTargets] at hfold
  exact hfold

theorem afterDraw_vf_eq_one_iff :
    (s.afterDraw x y n).readV 15 = 1 ↔ ∃ px py, s.DrawCovers x y n px py ∧ pixel s.fb px py = true := by
  rw [← drawn_collision_iff h, ← flagByte_eq_one, State.afterDraw, readV_writeV_advance]

theorem afterDraw_vf_eq_zero (hc : ¬ ∃ px py, s.DrawCovers x y n px py ∧ pixel s.fb px py = true) :
    (s.afterDraw x y n).readV 15 = 0 := by
  rw [State.afterDraw, readV_writeV_advance, flagByte_eq_zero, ← Bool.not_eq_true, drawn_collision_iff h]
  exact hc

end Draw

/-- Settles O24: a draw in range flips distinct pixels of the screen, exactly those the sprite covers. -/
theorem drawXorsTheSprite : Obligations.DrawXorsTheSprite := by
  intro x y n
  refine ⟨encodedAs_of_encodeXYN 0xD n rfl, ?_⟩
  rintro s _ _ rfl rfl
  refine ⟨fun hn hout => exec_drw_fault x y hn.ne' hout, fun hin => ?_⟩
  refine ⟨_, exec_drw_next x y (hin.imp_right Nat.lt_succ_of_le), rfl, drawn_size s x y n, afterDraw_keeps s x y n, ?_⟩
  intro hinv
  have hfits := hinv.screenFits
  exact ⟨fun _ _ _ _ => ⟨pixel_afterDraw_of_covers hfits x y n, pixel_afterDraw_of_not_covers hfits x y n⟩,
    (afterDraw_vf_eq_one_iff hfits x y n).mpr, afterDraw_vf_eq_zero hfits x y n⟩

/-! ### Two identical draws (R123) -/

/-- A `DRW` of `n` rows in `u` repeats one in `s`: same policy, same bytes, same start, through whatever registers (R123). -/
structure RepeatsDraw (s : State) (x y : Reg) (u : State) (x' y' : Reg) (n : Nibble) : Prop where
  cfg : u.cfg = s.cfg
  index : u.index = s.index
  bytes : ∀ r, r < n.toNat → u.readByte (s.index.toNat + r) = s.readByte (s.index.toNat + r)
  column : (u.readV x').toNat % s.cfg.displayWidth = (s.readV x).toNat % s.cfg.displayWidth
  row : (u.readV y').toNat % s.cfg.displayHeight = (s.readV y).toNat % s.cfg.displayHeight

section Repeated

variable {s u : State} {x y x' y' : Reg} {n : Nibble} (hsame : RepeatsDraw s x y u x' y' n)
include hsame

/-- The same sprite at the same place turns over the same pixels, whatever registers name the place. -/
theorem RepeatsDraw.drawTargets_eq : u.drawTargets x' y' n = s.drawTargets x y n := by
  simp only [State.drawTargets, startColumn, startRow, hsame.cfg, hsame.index, hsame.column, hsame.row,
    State.readBytes_congr hsame.bytes]

theorem RepeatsDraw.drawCovers_iff (px py : Nat) : u.DrawCovers x' y' n px py ↔ s.DrawCovers x y n px py := by
  rw [← mem_drawTargets, hsame.drawTargets_eq, mem_drawTargets]

/-- R123 (a): the second draw undoes each flip of the first. -/
theorem RepeatsDraw.fb_restored (hfb : u.fb = (s.afterDraw x y n).fb) : (u.afterDraw x' y' n).fb = s.fb := by
  rw [afterDraw_fb, hfb, afterDraw_fb, hsame.drawTargets_eq, flipAll_flipAll]

/-- R123 (c): after a draw onto clear pixels all covered pixels are lit, so the second draw collides where it draws at all. -/
theorem RepeatsDraw.vf_eq_one_iff (h : ScreenFits s.cfg s.fb) (hfb : u.fb = (s.afterDraw x y n).fb)
    (hclear : ∀ px py, s.DrawCovers x y n px py → pixel s.fb px py = false) :
    (u.afterDraw x' y' n).readV 15 = 1 ↔ ∃ px py, s.DrawCovers x y n px py := by
  have hfits : ScreenFits u.cfg u.fb := by
    rw [hsame.cfg, hfb]
    exact h.afterDraw x y n
  have hlit : ∀ px py, s.DrawCovers x y n px py → pixel u.fb px py = true := by
    intro px py hc
    rw [hfb, pixel_afterDraw_of_covers h x y n hc, hclear px py hc, Bool.not_false]
  simp only [afterDraw_vf_eq_one_iff hfits, hsame.drawCovers_iff]
  exact exists_congr fun px => exists_congr fun py => and_iff_left_of_imp (hlit px py)

end Repeated

/-- Settles O25: both draws run the same flips, and a flip undoes itself. -/
theorem drawTwiceRestoresTheScreen : Obligations.DrawTwiceRestoresTheScreen := by
  intro s t u x y x' y' n hdraw hcfg hfb hindex hbytes hcolumn hrow
  obtain ⟨rfl, hin⟩ := of_exec_drw_next hdraw
  have hsame : RepeatsDraw s x y u x' y' n := ⟨hcfg, hindex, hbytes, hcolumn, hrow⟩
  exact ⟨_, exec_drw_next x' y' (hindex ▸ hin), hsame.fb_restored hfb⟩

/-- Settles O26: no covered pixel is lit before the first draw, and every one is before the second. -/
theorem collisionOfRepeatedDraw : Obligations.CollisionOfRepeatedDraw := by
  intro s t u x y x' y' n hinv hdraw hclear
  obtain ⟨rfl, hin⟩ := of_exec_drw_next hdraw
  have hnone : ¬ ∃ px py, s.DrawCovers x y n px py ∧ pixel s.fb px py = true := by
    rintro ⟨px, py, hc, hlit⟩
    exact Bool.false_ne_true ((hclear px py hc).symm.trans hlit)
  refine ⟨afterDraw_vf_eq_zero hinv.screenFits x y n hnone, fun hcfg hfb hindex hbytes hcolumn hrow => ?_⟩
  have hsame : RepeatsDraw s x y u x' y' n := ⟨hcfg, hindex, hbytes, hcolumn, hrow⟩
  exact ⟨_, exec_drw_next x' y' (hindex ▸ hin), hsame.vf_eq_one_iff hinv.screenFits hfb hclear⟩

end Sys2Proof.Machine
end

section
/-! SUPPORT. Key skips, timers, the start of a key wait, decimal store and block transfers (R130 to R135, R138 to R140): what each
leaves behind, and the two outcomes of the three that check a range. -/

namespace Sys2Proof.Machine

/-! ### Key skips (R130, R131) -/

/-- A word of format XSUB with its low byte next to the first digit, as the statements write it (R62, R66). -/
theorem encodedAs_of_encodeXSub {i : Instr} (op : Nibble) (nn : Byte) {x : Reg} (h : encode i = encodeXNN op x nn) :
    EncodedAs i (op.toNat * 4096 + nn.toNat + 256 * x.val) := by
  have hw := encodedAs_of_encodeXNN op h
  rwa [Nat.add_right_comm] at hw

theorem eq_lowNibble_of_val {k : Key} {b : Byte} (h : k.val = b.toNat % 16) : k = lowNibble b :=
  Fin.ext (h.trans (lowNibble_val b).symm)

theorem State.skipIf_not_pc (s : State) (m : Bool) : (s.skipIf (!m)).pc = if m = true then s.pc + 2 else s.pc + 4 := by
  cases m with
  | false => rfl
  | true => rfl

/-- Settles O14: both are a skip on the key that the low nibble of `V[X]` names, with opposite senses. -/
theorem keySkipsTestLowNibbleKey : Obligations.KeySkipsTestLowNibbleKey := by
  intro x
  refine ⟨encodedAs_of_encodeXSub 0xE 0x9E rfl, encodedAs_of_encodeXSub 0xE 0xA1 rfl, fun s k hk => ?_⟩
  obtain rfl := eq_lowNibble_of_val hk
  exact ⟨⟨_, rfl, s.skipIf_pc _, s.skipIf_keeps _⟩, ⟨_, rfl, s.skipIf_not_pc _, s.skipIf_keeps _⟩⟩

/-! ### Timers (R132, R134, R135) -/

/-- Settles O27: each moves one byte between `V[X]` and a timer, and `pc` moves on. -/
theorem timerInstructions : Obligations.TimerInstructions := by
  intro x
  refine ⟨encodedAs_of_encodeMisc 0x07 rfl, encodedAs_of_encodeMisc 0x15 rfl, encodedAs_of_encodeMisc 0x18 rfl,
    fun s => ⟨?read, ?delay, ?sound⟩⟩
  case read => exact ⟨_, rfl, readV_writeV_advance s x s.dt, rfl, writeV_advance_keeps s x s.dt⟩
  case delay => exact ⟨_, rfl, rfl, rfl, (s.setDt_keeps _).trans (State.advance_keeps _) (fun _ => .inr) (fun _ => .inl)⟩
  case sound => exact ⟨_, rfl, rfl, rfl, (s.setSt_keeps _).trans (State.advance_keeps _) (fun _ => .inr) (fun _ => .inl)⟩

/-- The beep is on exactly while the sound timer is not 0 (R153). -/
theorem beep_iff (s : State) : s.beep = true ↔ s.st.toNat ≠ 0 :=
  bne_iff_ne.trans (not_congr BitVec.toNat_inj.symm)

/-- At the end of a tick the beep is on when the sound timer had more than the one unit that the tick took. -/
theorem endTick_beep_iff (s : State) : s.endTick.beep = true ↔ 2 ≤ s.st.toNat := by
  rw [beep_iff, State.endTick_st, countDown_toNat]
  omega

/-- Settles O28: the instruction acts first, then each timer counts once, and the count leaves `V[X]` alone. -/
theorem timerInstructionTicks : Obligations.TimerInstructionTicks := by
  intro s x hk
  refine ⟨fun hd => ?read, fun hd => ?delay, fun hd => ?sound⟩
  case read => exact ⟨_, step_of_fetchDecode hk hd, readV_writeV_advance s x s.dt, countDown_toNat s.dt⟩
  case delay => exact ⟨_, step_of_fetchDecode hk hd, countDown_toNat (s.readV x)⟩
  case sound =>
    exact ⟨_, step_of_fetchDecode hk hd, countDown_toNat (s.readV x), endTick_beep_iff (s.setSt (s.readV x)).advance⟩

/-! ### The start of a key wait (R133) -/

/-- Settles O29: the instruction writes `kw` and nothing else. -/
theorem keyWaitInstructionOnlyEntersTheWait : Obligations.KeyWaitInstructionOnlyEntersTheWait := fun _ =>
  ⟨encodedAs_of_encodeMisc 0x0A rfl, fun s => ⟨_, rfl, rfl, s.setKw_keeps _⟩⟩

/-! ### Decimal store (R138) -/

theorem exec_ldBVx_next {s : State} (x : Reg) (h : s.index.toNat + 2 < Config.memSize) :
    exec (.ldBVx x) s = .next (s.writeBytes s.index.toNat (decimalDigits (s.readV x))).advance :=
  withRange_ok _ (.inr h)

theorem exec_ldBVx_fault {s : State} (x : Reg) (h : Config.memSize ≤ s.index.toNat + 2) :
    exec (.ldBVx x) s = .fault (.outOfBoundsMemoryAccess (max s.index.toNat Config.memSize)) :=
  withRange_fault _ (by decide) h

/-- The three digits as numbers; division of bytes is that of the numbers they stand for. -/
theorem decimalDigits_toNat (v : Byte) :
    (decimalDigits v).map BitVec.toNat = [v.toNat / 100, v.toNat / 10 % 10, v.toNat % 10] := rfl

/-- After a store of the digits of `v` at `a`, the digit numbered `j` is read at `a + j`. -/
theorem readByte_writeBytes_decimalDigits (s : State) (a : Nat) (v : Byte) (j : Nat) {d : Nat}
    (h : [v.toNat / 100, v.toNat / 10 % 10, v.toNat % 10][j]? = some d) :
    ((s.writeBytes a (decimalDigits v)).readByte (a + j)).toNat = d := by
  rw [← decimalDigits_toNat, List.getElem?_map, Option.map_eq_some_iff] at h
  obtain ⟨b, hb, rfl⟩ := h
  obtain ⟨hj, rfl⟩ := List.getElem?_eq_some_iff.mp hb
  rw [readByte_writeBytes_add s a hj]

/-- Settles O30: in range the three digits are stored in order; else the range check fails first. -/
theorem decimalStoreWritesThreeDigits : Obligations.DecimalStoreWritesThreeDigits := by
  refine fun x => ⟨encodedAs_of_encodeMisc 0x33 rfl, fun s => ⟨exec_ldBVx_fault x, fun hin => ?_⟩⟩
  have hdigit := readByte_writeBytes_decimalDigits s s.index.toNat (s.readV x)
  refine ⟨_, exec_ldBVx_next x (Nat.lt_succ_of_le hin), rfl, hdigit 0 rfl, hdigit 1 rfl, hdigit 2 rfl, ?_⟩
  exact (s.writeBytes_keeps _ _).trans (State.advance_keeps _) (fun _ => .inr) (fun _ => .inl)

/-! ### Block transfers (R139, R140) -/

theorem autoIndex_advance_keeps (s : State) (n : Nat) :
    KeepsAllBut (fun p => p = .pc ∨ p = .index) s (s.autoIndex n).advance :=
  (s.autoIndex_keeps n).trans (State.advance_keeps _) (fun _ => .inr) (fun _ => .inl)

/-- Under either setting of `INDEX_AUTOINCREMENT`, `I` as a number where it does not wrap; after a transfer it cannot. -/
theorem autoIndex_index_toNat {s : State} {n : Nat} (h : s.index.toNat + n < 65536) :
    (s.autoIndex n).index.toNat = s.index.toNat + (if s.cfg.indexAutoincrement = true then n else 0) := by
  rw [State.autoIndex_index]
  split
  · rw [BitVec.toNat_add, BitVec.toNat_ofNat, Nat.add_mod_mod, Nat.mod_eq_of_lt h]
  · rfl

theorem exec_ldMemVx_fault {s : State} {x : Reg} (h : Config.memSize ≤ s.index.toNat + x.val) :
    exec (.ldMemVx x) s = .fault (.outOfBoundsMemoryAccess (max s.index.toNat Config.memSize)) :=
  withRange_fault _ (Nat.succ_ne_zero _) h

/-- Settles O31: in range `V0` to `VX` are stored and `I` may advance; else the range check fails first. -/
theorem blockStoreWritesRegisterRange : Obligations.BlockStoreWritesRegisterRange := by
  refine fun x => ⟨encodedAs_of_encodeMisc 0x55 rfl, fun s => ⟨exec_ldMemVx_fault, fun hin => ?_⟩⟩
  have hnext := exec_ldMemVx_next (Nat.lt_succ_of_le hin)
  refine ⟨_, hnext, ?pc, fun r hr => readByte_of_exec_ldMemVx hnext hr, ?index, ?frame⟩
  case pc => rw [State.advance_pc, State.autoIndex_pc, State.writeBytes_pc]
  case index => exact autoIndex_index_toNat (s := s.writeBytes _ _) (by rw [State.writeBytes_index]; omega)
  case frame =>
    have hstore := s.writeBytes_keeps s.index.toNat (s.regRange x)
    rw [regRange_length] at hstore
    exact hstore.trans (autoIndex_advance_keeps _ _) (fun _ h => .inr (.inr h)) (fun _ => .imp_right .inl)

theorem exec_ldVxMem_next {s : State} {x : Reg} (h : s.index.toNat + x.val < Config.memSize) :
    exec (.ldVxMem x) s =
      .next ((s.loadRegs (s.readBytes s.index.toNat (x.val + 1))).autoIndex (x.val + 1)).advance :=
  withRange_ok _ (.inr h)

theorem exec_ldVxMem_fault {s : State} {x : Reg} (h : Config.memSize ≤ s.index.toNat + x.val) :
    exec (.ldVxMem x) s = .fault (.outOfBoundsMemoryAccess (max s.index.toNat Config.memSize)) :=
  withRange_fault _ (Nat.succ_ne_zero _) h

/-- A block load from `a` leaves the byte at `a + r` in `V[r]`, for each register of its range. -/
theorem readV_loadRegs_readBytes (s : State) (a : Nat) {x r : Reg} (h : r ≤ x) :
    (s.loadRegs (s.readBytes a (x.val + 1))).readV r = s.readByte (a + r.val) := by
  have hr : r.val < (s.readBytes a (x.val + 1)).length := by
    rw [State.readBytes_length]
    exact Nat.lt_succ_of_le h
  rw [State.loadRegs_readV, dif_pos hr, State.readBytes_getElem]

theorem loadRegs_readBytes_keeps (s : State) (a : Nat) (x : Reg) :
    KeepsAllBut (fun p => ∃ r, p = .reg r ∧ r ≤ x) s (s.loadRegs (s.readBytes a (x.val + 1))) := by
  refine (s.loadRegs_keeps _).mono ?_
  rintro _ ⟨r, rfl, hr⟩
  rw [State.readBytes_length] at hr
  exact ⟨r, rfl, Nat.le_of_lt_succ hr⟩

/-- Settles O32: in range `V0` to `VX` are loaded and `I` may advance; else the range check fails first. -/
theorem blockLoadWritesRegisterRange : Obligations.BlockLoadWritesRegisterRange := by
  refine fun x => ⟨encodedAs_of_encodeMisc 0x65 rfl, fun s => ⟨exec_ldVxMem_fault, fun hin => ?_⟩⟩
  refine ⟨_, exec_ldVxMem_next (Nat.lt_succ_of_le hin), ?pc, fun r hr => ?loaded, ?index, ?frame⟩
  case pc => rw [State.advance_pc, State.autoIndex_pc, State.loadRegs_pc]
  case loaded => rw [State.advance_readV, State.autoIndex_readV, readV_loadRegs_readBytes s _ hr]
  case index => exact autoIndex_index_toNat (s := s.loadRegs _) (by rw [State.loadRegs_index]; omega)
  case frame =>
    exact (loadRegs_readBytes_keeps s _ x).trans (autoIndex_advance_keeps _ _) (fun _ h => .inr (.inr h))
      (fun _ => .imp_right .inl)

end Sys2Proof.Machine
end

section
/-! SUPPORT. The tick (R150 to R159): the arm that ran before a successful tick's end, the key wait under both policies, the input
that only the key rules read, and what the host sees. -/

namespace Sys2Proof.Machine

/-! ### The arm of a successful tick (R154) -/

/-- A successful tick is an instruction or a key-wait arm, which writes a register, `pc` and `kw` at most, and then its end. -/
theorem step_next_arm {s t : State} (h : step s = .next t) : ∃ u, t = u.endTick ∧
    ((s.kw = .running ∧ ∃ i, s.fetchDecode = .ok i ∧ exec i s = .next u) ∨
      ∃ r, KeepsAllBut (fun p => p = .reg r ∨ p = .pc ∨ p = .keyWait) s u) := by
  rcases step_next h with ⟨hk, i, u, hd, hu, rfl⟩ | ⟨r, -, rfl⟩ | ⟨r, k, -, rfl⟩
  · exact ⟨u, rfl, .inl ⟨hk, i, hd, hu⟩⟩
  · exact ⟨_, rfl, .inr ⟨r, keyWaitAwaiting_keeps s r⟩⟩
  · exact ⟨_, rfl, .inr ⟨r, keyWaitCaptured_keeps s r k⟩⟩

/-- Settles O43: neither arm writes the configuration or the inputs, and the end of the tick takes one snapshot. -/
theorem tickConsumesOneSnapshot : Obligations.TickConsumesOneSnapshot := by
  intro s t h
  obtain ⟨u, rfl, ⟨-, i, -, hu⟩ | ⟨r, hkeeps⟩⟩ := step_next_arm h
  · obtain ⟨hcfg, hpads, hticks, hloaded⟩ := (exec_effect hu).inputs_kept
    exact ⟨hcfg, hloaded, congrArg List.tail hpads, congrArg (· + 1) hticks⟩
  · obtain ⟨hpads, hticks⟩ := hkeeps .input (by simp)
    exact ⟨hkeeps .config (by simp), hkeeps .loaded (by simp), congrArg List.tail hpads, congrArg (· + 1) hticks⟩

/-! ### The timers (R157) -/

/-- Before a successful tick's end `DT` is as it was, unless the tick runs `LD DT, Vx`; and so for `ST` and `LD ST, Vx`. -/
theorem step_timer_writers {s t : State} (h : step s = .next t) : ∃ u : State, t = u.endTick ∧
    (u.dt ≠ s.dt → ∃ x, s.kw = .running ∧ s.fetchDecode = .ok (.ldDtVx x)) ∧
    (u.st ≠ s.st → ∃ x, s.kw = .running ∧ s.fetchDecode = .ok (.ldStVx x)) := by
  obtain ⟨u, rfl, ⟨hk, i, hd, hu⟩ | ⟨r, hkeeps⟩⟩ := step_next_arm h
  · refine ⟨u, rfl, fun hne => ?delay, fun hne => ?sound⟩
    case delay =>
      obtain ⟨x, rfl⟩ := (exec_effect hu).dt_writers hne
      exact ⟨x, hk, hd⟩
    case sound =>
      obtain ⟨x, rfl⟩ := (exec_effect hu).st_writers hne
      exact ⟨x, hk, hd⟩
  · exact ⟨u, rfl, fun hne => absurd (hkeeps .delay (by simp)) hne, fun hne => absurd (hkeeps .sound (by simp)) hne⟩

/-- Settles O41: the end of the tick counts down what the arm left, and only the two timer loads leave something new. -/
theorem timersCountDownOncePerTick : Obligations.TimersCountDownOncePerTick := by
  intro s t h
  obtain ⟨u, rfl, hdt, hst⟩ := step_timer_writers h
  refine ⟨fun hno => ?delayKept, fun x hk hd => ?delayLoaded, fun hno => ?soundKept, fun x hk hd => ?soundLoaded⟩
  case delayKept =>
    have hkept : u.dt = s.dt := by_contra fun hne => (hdt hne).elim hno
    rw [State.endTick_dt, countDown_toNat, hkept]
  case soundKept =>
    have hkept : u.st = s.st := by_contra fun hne => (hst hne).elim hno
    rw [State.endTick_st, countDown_toNat, hkept]
  case delayLoaded =>
    obtain ⟨-, hdelay, -⟩ := timerInstructionTicks s x hk
    obtain ⟨v, hv, hcount⟩ := hdelay hd
    rwa [← Host.Outcome.next.inj (hv.symm.trans h)]
  case soundLoaded =>
    obtain ⟨-, -, hsound⟩ := timerInstructionTicks s x hk
    obtain ⟨v, hv, hcount, -⟩ := hsound hd
    rwa [← Host.Outcome.next.inj (hv.symm.trans h)]

/-! ### A running tick (R154) -/

/-- With both bytes at `pc` in range, what is decoded is their big-endian word (R45, R47). -/
theorem fetchDecode_of_word {s : State} {i : Instr} (hpc : s.pc.toNat + 1 < Config.memSize)
    (hd : decode (BitVec.ofNat 16 (256 * (s.readByte s.pc.toNat).toNat + (s.readByte (s.pc.toNat + 1)).toNat)) = .ok i) :
    s.fetchDecode = .ok i := by
  obtain ⟨w, hw, hval⟩ := fetch_ok_toNat s hpc
  rw [← hval, BitVec.ofNat_toNat, BitVec.setWidth_eq] at hd
  exact fetchDecode_ok.mpr ⟨w, hw, hd⟩

/-- Settles O38: the tick is the decoded instruction's outcome, and the end of the tick after a success. -/
theorem stepRunsTheDecodedInstruction : Obligations.StepRunsTheDecodedInstruction := by
  intro s i hk hpc hd
  rw [step_of_fetchDecode hk (fetchDecode_of_word (Nat.lt_succ_of_le hpc) hd)]
  refine ⟨fun t ht => ?_, fun f => onNext_fault.mpr, fun r => onNext_refused.mpr⟩
  rw [ht]
  exact ⟨_, rfl, countDown_toNat t.dt, countDown_toNat t.st, t.endTick_keeps⟩

/-! ### The key wait (R155, R156) -/

theorem keyWaitAwaiting_of_none {s : State} (r : Reg) (h : s.leastKeyDown = none) : s.keyWaitAwaiting r = s := by
  rw [State.keyWaitAwaiting, h]

theorem keyWaitAwaiting_of_anyDown {s : State} (r : Reg) {k : Key} (h : s.leastKeyDown = some k)
    (hp : s.cfg.keyConfirm = .anyDown) : s.keyWaitAwaiting r = s.commitKey r k := by
  rw [State.keyWaitAwaiting, h, hp]

theorem keyWaitAwaiting_of_pressThenRelease {s : State} (r : Reg) {k : Key} (h : s.leastKeyDown = some k)
    (hp : s.cfg.keyConfirm = .pressThenRelease) : s.keyWaitAwaiting r = s.setKw (.captured r k) := by
  rw [State.keyWaitAwaiting, h, hp]

theorem keyWaitCaptured_of_down {s : State} (r : Reg) {k : Key} (h : s.keyDown k = true) : s.keyWaitCaptured r k = s :=
  if_pos h

theorem keyWaitCaptured_of_up {s : State} (r : Reg) {k : Key} (h : s.keyDown k = false) :
    s.keyWaitCaptured r k = s.commitKey r k := if_neg (Bool.eq_false_iff.mp h)

/-- What a tick that commits key `k` to `V[r]` leaves. -/
theorem commitKey_endTick (s : State) (r : Reg) (k : Key) :
    ((s.commitKey r k).endTick.readV r).toNat = k.val ∧ (s.commitKey r k).endTick.pc = s.pc + 2 ∧
      (s.commitKey r k).endTick.kw = .running ∧
      KeepsAllBut (fun p => p = .reg r ∨ p = .pc ∨ p = .keyWait ∨ p = .delay ∨ p = .sound ∨ p = .input) s
        (s.commitKey r k).endTick := by
  refine ⟨?value, rfl, rfl, ?frame⟩
  case value =>
    have hread : (s.commitKey r k).endTick.readV r = BitVec.ofNat 8 k.val := commitKey_readV s r k
    rw [hread, BitVec.toNat_ofNat]
    exact Nat.mod_eq_of_lt (k.isLt.trans (by decide))
  case frame =>
    exact (commitKey_keeps s r k).trans (State.endTick_keeps _) (fun _ => .imp_right (.imp_right .inl))
      (fun _ h => .inr (.inr (.inr h)))

/-- Settles O39: without a key the arm does nothing; else the policy commits or captures the least key down. -/
theorem awaitingTickResolvesOrWaits : Obligations.AwaitingTickResolvesOrWaits := by
  intro s r hk
  rw [step_awaiting hk]
  refine ⟨fun hup => ?noKey, fun k hdown hleast => ⟨_, rfl, fun hpolicy => ?anyDown, fun hpolicy => ?pressThenRelease⟩⟩
  case noKey =>
    rw [keyWaitAwaiting_of_none r (leastKeyDown_none.mpr hup)]
    exact ⟨_, rfl, s.endTick_keeps⟩
  case anyDown =>
    rw [keyWaitAwaiting_of_anyDown r (leastKeyDown_some.mpr ⟨hdown, hleast⟩) hpolicy]
    exact commitKey_endTick s r k
  case pressThenRelease =>
    rw [keyWaitAwaiting_of_pressThenRelease r (leastKeyDown_some.mpr ⟨hdown, hleast⟩) hpolicy]
    exact ⟨rfl, (s.setKw_keeps _).trans (State.endTick_keeps _) (fun _ => .inl) (fun _ => .inr)⟩

/-- Settles O40: the watched key holds the wait while it is down and is committed when it is up. -/
theorem capturedTickCommitsOnRelease : Obligations.CapturedTickCommitsOnRelease := by
  intro s r k hk
  rw [step_captured hk]
  refine ⟨fun hdown => ?down, fun hup => ?up⟩
  case down =>
    rw [keyWaitCaptured_of_down r hdown]
    exact ⟨_, rfl, s.endTick_keeps⟩
  case up =>
    rw [keyWaitCaptured_of_up r hup]
    exact ⟨_, rfl, commitKey_endTick s r k⟩

/-! ### The input is read by the key rules alone (R151) -/

/-- A state with other snapshots laid out, at another tick count. -/
def State.withInput (s : State) (pads : List Keypad) (n : Nat) : State := { s with keypads := pads, ticks := n }

theorem State.withInput_keeps (s : State) (pads : List Keypad) (n : Nat) :
    KeepsAllBut (fun p => p = .input) s (s.withInput pads n) := by
  intro p hp
  cases p with
  | input => exact absurd rfl hp
  | _ => rfl

theorem supply_eq_withInput (s : State) (k k' : Keypad) :
    s.supply k' = (s.supply k).withInput (k' :: s.keypads) s.ticks := rfl

theorem autoIndex_withInput (s : State) (pads : List Keypad) (n m : Nat) :
    (s.withInput pads n).autoIndex m = (s.autoIndex m).withInput pads n := by
  unfold State.autoIndex
  rw [apply_ite (State.withInput · pads n)]
  rfl

/-- An instruction that tests no key carries a changed input along. -/
theorem exec_withInput {i : Instr} (hi : ∀ x, i ≠ .skp x ∧ i ≠ .sknp x) (s : State) (pads : List Keypad) (n : Nat) :
    exec i (s.withInput pads n) = onNext (exec i s) (·.withInput pads n) := by
  cases i with
  | skp x => exact absurd rfl (hi x).1
  | sknp x => exact absurd rfl (hi x).2
  | ret | call =>
    simp only [exec, execRet, execCall, onNext_ite]
    rfl
  | drw | ldBVx =>
    simp only [exec, execDrw, execLdBVx, onNext_withRange]
    rfl
  | ldMemVx x =>
    simp only [exec, execLdMemVx, onNext_withRange]
    exact congrArg (fun u => withRange s.index.toNat (x.val + 1) (.next u.advance))
      (autoIndex_withInput (s.writeBytes _ (s.regRange x)) pads n _)
  | ldVxMem x =>
    simp only [exec, execLdVxMem, onNext_withRange]
    exact congrArg (fun u => withRange s.index.toNat (x.val + 1) (.next u.advance))
      (autoIndex_withInput (s.loadRegs (s.readBytes _ _)) pads n _)
  | _ => rfl

/-- The instruction at `pc` is neither `SKP` nor `SKNP`. -/
def State.TestsNoKey (s : State) : Prop := ∀ x, s.fetchDecode ≠ .ok (.skp x) ∧ s.fetchDecode ≠ .ok (.sknp x)

/-- A running tick that tests no key ends alike from every input, but for the input that is left (R151). -/
theorem step_withInput {s : State} (hk : s.kw = .running) (hno : s.TestsNoKey) (pads : List Keypad) (n : Nat) :
    step (s.withInput pads n) = onNext (step s) (·.withInput pads.tail (n + 1)) := by
  have hfetch : (s.withInput pads n).fetchDecode = s.fetchDecode := fetchDecode_congr rfl fun _ => rfl
  rw [step_running hk, step_running (s := s.withInput pads n) hk, State.runInstr, State.runInstr, hfetch]
  cases hd : s.fetchDecode with
  | error f => rfl
  | ok i =>
    have hi : ∀ x, i ≠ .skp x ∧ i ≠ .sknp x := fun x =>
      ⟨fun h => (hno x).1 (h ▸ hd), fun h => (hno x).2 (h ▸ hd)⟩
    simp only [exec_withInput hi, onNext_onNext]
    rfl

theorem step_fault_withInput {s : State} {f : Fault} (hk : s.kw = .running) (hno : s.TestsNoKey) (h : step s = .fault f)
    (pads : List Keypad) (n : Nat) : step (s.withInput pads n) = .fault f := by
  rw [step_withInput hk hno, h, onNext]

/-- A skip always succeeds, so a failing tick ran no key skip. -/
theorem testsNoKey_of_step_fault {s : State} {f : Fault} (h : step s = .fault f) : s.TestsNoKey := by
  obtain ⟨hk, -⟩ := step_fault h
  have hno : ∀ i, isSkip i = true → s.fetchDecode ≠ .ok i := by
    intro i hi hd
    obtain ⟨m, hm⟩ := exec_of_isSkip s hi
    rw [step_of_fetchDecode hk hd, hm] at h
    cases h
  exact fun x => ⟨hno _ rfl, hno _ rfl⟩

theorem keyDown_supply_bytes (s : State) (bytes : Vector Byte 16) (k : Key) :
    (s.supply (keypadOfBytes bytes)).keyDown k = (bytes[k.val] != 0) :=
  Vector.getElem_map _ k.isLt

/-- Settles O49: another input is carried through the tick unread; and a byte entry is compared with 0. -/
theorem keypadIsReadOnlyByKeyRules : Obligations.KeypadIsReadOnlyByKeyRules := by
  refine ⟨fun s pads n hk hno => ⟨fun t ht => ?next, fun f hf => ?fault⟩, fun s bytes k => ?bytes⟩
  case fault => exact step_fault_withInput hk hno hf pads n
  case next =>
    refine ⟨t.withInput pads.tail (n + 1), ?_, t.withInput_keeps _ _⟩
    exact (step_withInput hk hno pads n).trans (congrArg (onNext · _) ht)
  case bytes =>
    rw [keyDown_supply_bytes]
    exact bne_iff_ne.trans (not_congr BitVec.toNat_inj.symm)

/-! ### The host's tick and outputs (R150, R152, R153, R159) -/

/-- A failing tick reports the step's failure and leaves the machine as it was (R171). -/
theorem tick_failure_iff {s t : State} {k : Keypad} {f : Fault} :
    tick s k = (.failure f, t) ↔ step (s.supply k) = .fault f ∧ t = s := by
  unfold tick
  cases step (s.supply k) <;> simp [eq_comm]

/-- Settles O46: the machine is as it was, and what failed reads no snapshot. -/
theorem failedTickRepeats : Obligations.FailedTickRepeats := by
  intro s t k f h k'
  obtain ⟨hstep, rfl⟩ := tick_failure_iff.mp h
  obtain ⟨hk, -⟩ := step_fault hstep
  rw [tick_failure_iff, supply_eq_withInput t k k']
  exact ⟨step_fault_withInput hk (testsNoKey_of_step_fault hstep) hstep _ _, rfl⟩

/-- Rows of one length `w`, end to end: entry `x` of row `y` stands at `y * w + x` (R22). -/
theorem getElem?_flatten_of_width {fb : Framebuffer} {w x y : Nat} (hw : ∀ row ∈ fb, row.length = w) (hx : x < w)
    (hy : y < fb.length) : fb.flatten[y * w + x]? = some (pixel fb x y) := by
  induction fb generalizing y with
  | nil => exact absurd hy (Nat.not_lt_zero y)
  | cons row rows ih =>
    have hrow : row.length = w := hw row List.mem_cons_self
    have hrows : ∀ row ∈ rows, row.length = w := fun r hr => hw r (List.mem_cons_of_mem row hr)
    rw [List.flatten_cons]
    cases y with
    | zero =>
      rw [Nat.zero_mul, Nat.zero_add, List.getElem?_append_left (hrow ▸ hx)]
      simp [pixel, hrow, hx]
    | succ y =>
      have hskip : (y + 1) * w + x = row.length + (y * w + x) := by rw [hrow]; ring
      rw [hskip, List.getElem?_append_right (Nat.le_add_right _ _), Nat.add_sub_cancel_left,
        ih hrows (Nat.lt_of_succ_lt_succ hy)]
      rfl

theorem length_flatten_of_width {fb : Framebuffer} {w : Nat} (hw : ∀ row ∈ fb, row.length = w) :
    fb.flatten.length = w * fb.length := by
  have hall : fb.map List.length = List.replicate fb.length w := List.map_eq_replicate_iff.mpr hw
  rw [List.length_flatten, hall, List.sum_replicate, smul_eq_mul, Nat.mul_comm]

/-- Settles O50: the beep compares `ST` with 0, and rows of the configured width lie end to end. -/
theorem hostOutputsShowScreenAndBeep : Obligations.HostOutputsShowScreenAndBeep := by
  refine fun s => ⟨beep_iff s, fun hinv => ⟨?size, fun x y hx hy => ?pixels⟩⟩
  case size => rw [State.framebufferBits, length_flatten_of_width hinv.fb_width, hinv.fb_height]
  case pixels => exact getElem?_flatten_of_width hinv.fb_width hx (hinv.fb_height ▸ hy)

end Sys2Proof.Machine
end

section
/-! SUPPORT. The failures (R170 to R179): the ways an instruction can fail, said once, that nothing is refused, the word and the address
a failing tick reports, and that it leaves no trace. -/

namespace Sys2Proof.Machine

/-! ### The ways an instruction fails (R173, R175, R176) -/

/-- `FailsWith s i f`: running `i` in `s` fails with `f`. One constructor per guard of an instruction. -/
inductive FailsWith (s : State) : Instr → Fault → Prop
  | callFull (a : Addr12) (hsp : s.cfg.stackCapacity ≤ s.sp) : FailsWith s (.call a) .stackOverflow
  | retEmpty (hsp : s.sp = 0) : FailsWith s .ret .stackUnderflow
  | draw (x y : Reg) (n : Nibble) (hn : n.toNat ≠ 0) (hr : Config.memSize ≤ s.index.toNat + n.toNat - 1) :
      FailsWith s (.drw x y n) (.outOfBoundsMemoryAccess (max s.index.toNat Config.memSize))
  | decimal (x : Reg) (hr : Config.memSize ≤ s.index.toNat + 2) :
      FailsWith s (.ldBVx x) (.outOfBoundsMemoryAccess (max s.index.toNat Config.memSize))
  | blockStore (x : Reg) (hr : Config.memSize ≤ s.index.toNat + x.val) :
      FailsWith s (.ldMemVx x) (.outOfBoundsMemoryAccess (max s.index.toNat Config.memSize))
  | blockLoad (x : Reg) (hr : Config.memSize ≤ s.index.toNat + x.val) :
      FailsWith s (.ldVxMem x) (.outOfBoundsMemoryAccess (max s.index.toNat Config.memSize))

/-- Every instruction succeeds, or one of the guards fails it; there is no third outcome. -/
theorem exec_next_or_fails (i : Instr) (s : State) :
    (∃ t, exec i s = .next t) ∨ ∃ f, exec i s = .fault f ∧ FailsWith s i f := by
  cases i with
  | call a =>
    rcases Nat.lt_or_ge s.sp s.cfg.stackCapacity with hsp | hsp
    · exact .inl ⟨_, exec_call_next a hsp⟩
    · exact .inr ⟨_, exec_call_full a hsp, .callFull a hsp⟩
  | ret =>
    rcases Nat.eq_zero_or_pos s.sp with hsp | hsp
    · exact .inr ⟨_, exec_ret_empty hsp, .retEmpty hsp⟩
    · exact .inl ⟨_, exec_ret_next hsp⟩
  | drw x y n => exact (withRange_cases _ _ _).imp (fun h => ⟨_, h.1⟩) fun ⟨h, hn, hr⟩ => ⟨_, h, .draw x y n hn hr⟩
  | ldBVx x => exact (withRange_cases _ _ _).imp (fun h => ⟨_, h.1⟩) fun ⟨h, _, hr⟩ => ⟨_, h, .decimal x hr⟩
  | ldMemVx x => exact (withRange_cases _ _ _).imp (fun h => ⟨_, h.1⟩) fun ⟨h, _, hr⟩ => ⟨_, h, .blockStore x hr⟩
  | ldVxMem x => exact (withRange_cases _ _ _).imp (fun h => ⟨_, h.1⟩) fun ⟨h, _, hr⟩ => ⟨_, h, .blockLoad x hr⟩
  | _ => exact .inl ⟨_, rfl⟩

theorem exec_fails_with {i : Instr} {s : State} {f : Fault} (h : exec i s = .fault f) : FailsWith s i f := by
  rcases exec_next_or_fails i s with ⟨t, ht⟩ | ⟨g, hg, hfails⟩
  · exact nomatch ht.symm.trans h
  · rwa [← Host.Outcome.fault.inj (hg.symm.trans h)]

theorem exec_ne_refused (i : Instr) (s : State) (r : Refusal) : exec i s ≠ .refused r := by
  rcases exec_next_or_fails i s with ⟨t, ht⟩ | ⟨f, hf, -⟩
  · rw [ht]; nofun
  · rw [hf]; nofun

/-- Nor is a tick refused: the key-wait arms succeed, and a running tick does what its fetch or its instruction does. -/
theorem step_ne_refused (s : State) (r : Refusal) : step s ≠ .refused r := by
  cases hk : s.kw with
  | awaitingKey q => rw [step_awaiting hk]; nofun
  | captured q k => rw [step_captured hk]; nofun
  | running =>
    cases hd : s.fetchDecode with
    | error f => rw [step_of_fetchDecode_error hk hd]; nofun
    | ok i => rw [step_of_fetchDecode hk hd, Ne, onNext_refused]; exact exec_ne_refused i s r

/-- Settles O44: the guards of `FailsWith` are the listed cases; under the bound on `SP`, full means equal to `STACK_CAPACITY`. -/
theorem instructionsFailOnlyByTheTaxonomy : Obligations.InstructionsFailOnlyByTheTaxonomy := by
  refine fun i s hsp => ⟨fun f => ⟨fun h => ?listed, ?fails⟩, exec_ne_refused i s, step_ne_refused s⟩
  case listed =>
    cases exec_fails_with h with
    | callFull a hfull => exact .inl ⟨⟨a, rfl⟩, hsp.antisymm hfull, rfl⟩
    | retEmpty hempty => exact .inr (.inl ⟨rfl, hempty, rfl⟩)
    | draw x y n hn hr => exact .inr (.inr (.inl ⟨⟨x, y, n, rfl, Nat.pos_of_ne_zero hn, hr⟩, rfl⟩))
    | decimal x hr => exact .inr (.inr (.inr (.inl ⟨⟨x, rfl, hr⟩, rfl⟩)))
    | blockStore x hr => exact .inr (.inr (.inr (.inr ⟨⟨x, .inl rfl, hr⟩, rfl⟩)))
    | blockLoad x hr => exact .inr (.inr (.inr (.inr ⟨⟨x, .inr rfl, hr⟩, rfl⟩)))
  case fails =>
    rintro (⟨⟨a, rfl⟩, hfull, rfl⟩ | ⟨rfl, hempty, rfl⟩ | ⟨⟨x, y, n, rfl, hn, hr⟩, rfl⟩ | ⟨⟨x, rfl, hr⟩, rfl⟩ |
      ⟨⟨x, rfl | rfl, hr⟩, rfl⟩)
    · exact exec_call_full a hfull.ge
    · exact exec_ret_empty hempty
    · exact exec_drw_fault x y (Nat.ne_zero_of_lt hn) hr
    · exact exec_ldBVx_fault x hr
    · exact exec_ldMemVx_fault hr
    · exact exec_ldVxMem_fault hr

/-! ### The failing access (R173) -/

theorem step_of_fetch_error {s : State} {f : Fault} (hk : s.kw = .running) (h : fetch s s.pc.toNat = .error f) :
    step s = .fault f := step_of_fetchDecode_error hk (fetchDecode_of_fetch_error h)

/-- Settles O37: the first byte of the fetch is outside memory, or the second alone; the others fail their range check. -/
theorem outOfBoundsReportsByAccess : Obligations.OutOfBoundsReportsByAccess := fun _ x y _ =>
  ⟨fun hk hpc => step_of_fetch_error hk (fetch_error_first hpc),
    fun hk hpc => step_of_fetch_error hk (fetch_error_edge hpc.ge (hpc.trans_le (by decide))),
    fun hn hr => exec_drw_fault x y (Nat.ne_zero_of_lt hn) hr,
    exec_ldBVx_fault x,
    fun hr => ⟨exec_ldMemVx_fault hr, exec_ldVxMem_fault hr⟩⟩

/-! ### The illegal word (R172) -/

/-- A running tick that fetched `w` reports an undecodable word exactly when `w` is one, and then reports `w`: no guard of an
instruction reports one. -/
theorem step_decodeFailure_iff {s : State} {w w' : Word} (hk : s.kw = .running) (hw : fetch s s.pc.toNat = .ok w) :
    step s = .fault (.decodeFailure w') ↔ w' = w ∧ ∃ e, decode w = .error e := by
  cases hd : decode w with
  | error e =>
    rw [step_of_fetchDecode_error hk (fetchDecode_of_illegal hw hd)]
    simp [eq_comm]
  | ok i =>
    rw [step_of_fetchDecode hk (fetchDecode_ok.mpr ⟨w, hw, hd⟩), onNext_fault]
    exact iff_of_false (fun h => nomatch exec_fails_with h) (by simp)

/-- Settles O4: the two bytes at `pc` make one word, and that is the word fetched. -/
theorem illegalWordFailsTheTick : Obligations.IllegalWordFailsTheTick := by
  intro s w hk hpc hw
  obtain ⟨v, hv, hnum⟩ := fetch_ok_toNat s (Nat.lt_succ_of_le hpc)
  obtain rfl : v = w := BitVec.eq_of_toNat_eq (hnum.trans hw.symm)
  have hfails := fun w' => step_decodeFailure_iff (w' := w') hk hv
  exact ⟨⟨fun h => (hfails v).mpr ⟨rfl, h⟩, fun h => ((hfails v).mp h).2⟩, fun w' h => ((hfails w').mp h).1⟩

/-! ### No trace (R171) -/

/-- Settles O45: a tick's failure comes with the machine it was given. -/
theorem failedTickLeavesNoTrace : Obligations.FailedTickLeavesNoTrace := fun _ _ _ h =>
  (tick_failure_iff.mp (Prod.ext h rfl)).2

end Sys2Proof.Machine
end

section
/-! SUPPORT. Reset, load and boot (R190 to R193): what each part of the state holds after `Reset`, the two answers of `Load` before
the first tick, and the first fetch with and without a program. -/

namespace Sys2Proof.Machine

/-! ### The state after reset (R190) -/

@[simp] theorem resetWith_readV (c : Config) (r : Reg) : (State.resetWith c).readV r = 0 :=
  Vector.getElem_replicate r.isLt

theorem resetWith_pc_toNat {c : Config} (h : c.wf = true) : (State.resetWith c).pc.toNat = c.programOrigin := by
  obtain ⟨-, -, horigin, -⟩ := c.wf_iff.mp h
  exact Nat.mod_eq_of_lt (by omega)

theorem resetWith_stack_getElem? {c : Config} {k : Nat} (h : k < c.stackCapacity) :
    (State.resetWith c).stack[k]? = some 0 :=
  List.getElem?_replicate_of_lt h

/-- Right after reset every address reads as its reset contents: memory lists nothing. -/
theorem resetWith_readByte (c : Config) (a : Nat) : (State.resetWith c).readByte a = initialByte c a := rfl

/-- Byte `j` of the font stands at `FONT_BASE + j` (R191). -/
theorem resetWith_readByte_font {c : Config} (h : c.wf = true) {j : Nat} {b : Byte} (hj : c.fontTable[j]? = some b) :
    (State.resetWith c).readByte (c.fontBase + j) = b := by
  obtain ⟨-, -, -, hlength, -, -⟩ := c.wf_iff.mp h
  obtain ⟨hlt, -⟩ := List.getElem?_eq_some_iff.mp hj
  have hfont : c.fontBase ≤ c.fontBase + j ∧ c.fontBase + j < c.fontBase + 16 * c.glyphSize := by omega
  rw [resetWith_readByte, initialByte, if_pos hfont, Nat.add_sub_cancel_left, List.getD_eq_getElem?_getD, hj,
    Option.getD_some]

/-- Outside the font every byte is 0 (R190). -/
theorem resetWith_readByte_of_not_font {c : Config} {a : Nat} (h : a < c.fontBase ∨ c.fontBase + 16 * c.glyphSize ≤ a) :
    (State.resetWith c).readByte a = 0 := by
  rw [resetWith_readByte, initialByte, if_neg (by omega)]

/-- The screen after reset is a clear one: clearing it changes nothing. -/
theorem clearAll_resetWith_fb (c : Config) : clearAll (State.resetWith c).fb = (State.resetWith c).fb := by
  simp only [clearAll, State.resetWith, List.map_replicate]

@[simp] theorem pixel_resetWith_fb (c : Config) (x y : Nat) : pixel (State.resetWith c).fb x y = false := by
  rw [← clearAll_resetWith_fb, pixel_clearAll]

/-- Settles O51: part by part; of memory, the font's bytes and the bytes on both sides of it. -/
theorem resetValues : Obligations.ResetValues := by
  rintro c hwf _ rfl
  exact ⟨resetWith_readV c, resetWith_pc_toNat hwf, rfl, rfl, fun _ => resetWith_stack_getElem?, rfl, rfl, rfl, rfl,
    fun _ _ => resetWith_readByte_font hwf, fun _ => resetWith_readByte_of_not_font, pixel_resetWith_fb c, rfl⟩

/-! ### `Load` (R192, R174) -/

theorem imageFits_iff {c : Config} {image : List Byte} :
    c.imageFits image = true ↔ image.length ≤ Config.memSize - c.programOrigin := decide_eq_true_iff

/-- The state `Load` leaves when the image fits: the image in memory, and the model's own load mark (log 9). -/
def State.loadImage (s : State) (image : List Byte) : State :=
  { s.writeBytes s.cfg.programOrigin image with loaded := true }

/-- The image is copied verbatim (R192). -/
theorem State.loadImage_readByte_add {s : State} {image : List Byte} {j : Nat} {b : Byte} (h : image[j]? = some b) :
    (s.loadImage image).readByte (s.cfg.programOrigin + j) = b := by
  obtain ⟨hlt, hb⟩ := List.getElem?_eq_some_iff.mp h
  exact (readByte_writeBytes_add s _ hlt).trans hb

theorem State.setLoaded_keeps (s : State) (l : Bool) : KeepsAllBut (fun p => p = .loaded) s { s with loaded := l } := by
  intro p hp
  cases p with
  | loaded => exact absurd rfl hp
  | input => exact ⟨rfl, rfl⟩
  | _ => rfl

theorem State.loadImage_keeps (s : State) (image : List Byte) :
    KeepsAllBut (fun p => p = .loaded ∨ ∃ a, p = .byte a ∧ s.cfg.programOrigin ≤ a ∧
      a < s.cfg.programOrigin + image.length) s (s.loadImage image) :=
  (s.writeBytes_keeps _ image).trans (State.setLoaded_keeps _ true) (fun _ => .inr) (fun _ => .inl)

section BeforeLoad
variable {s : State} {image : List Byte} (hloaded : s.loaded = false) (hticks : s.ticks = 0)
include hloaded hticks

/-- Before any tick and any earlier load, `Load` turns on the image's length alone. -/
theorem load_of_fresh : load s image =
    if s.cfg.imageFits image then .next (s.loadImage image) else .fault .programTooLarge :=
  if_neg (by simp [hloaded, hticks])

theorem load_next (h : image.length ≤ Config.memSize - s.cfg.programOrigin) : load s image = .next (s.loadImage image) :=
  (load_of_fresh hloaded hticks).trans (if_pos (imageFits_iff.mpr h))

theorem load_fault (h : Config.memSize - s.cfg.programOrigin < image.length) : load s image = .fault .programTooLarge :=
  (load_of_fresh hloaded hticks).trans (if_neg fun hfits => h.not_ge (imageFits_iff.mp hfits))

end BeforeLoad

/-- Settles O54: the image is too long, or it is stored at `PROGRAM_ORIGIN`. -/
theorem loadCopiesTheImage : Obligations.LoadCopiesTheImage := fun s image _ hloaded hticks =>
  ⟨load_fault hloaded hticks, fun hfits =>
    ⟨s.loadImage image, load_next hloaded hticks hfits, fun _ _ => State.loadImage_readByte_add, s.loadImage_keeps image⟩⟩

/-! ### The first fetch (R193) -/

/-- `Reset`, then `Load`, of an image that fits (R192). -/
theorem boot_next {c : Config} {image : List Byte} (hwf : c.wf = true)
    (h : image.length ≤ Config.memSize - c.programOrigin) : boot c image = .next ((State.resetWith c).loadImage image) :=
  (if_pos hwf).trans (load_next rfl rfl h)

/-- The word at `PROGRAM_ORIGIN` after `Load` is the image's first two bytes, the first one high (R47, R193). -/
theorem fetch_loadImage (s : State) (b0 b1 : Byte) (rest : List Byte) (h : s.cfg.programOrigin + 1 < Config.memSize) :
    fetch (s.loadImage (b0 :: b1 :: rest)) s.cfg.programOrigin = .ok (wordOfBytes b0 b1) := by
  have h0 : (s.loadImage (b0 :: b1 :: rest)).readByte s.cfg.programOrigin = b0 :=
    State.loadImage_readByte_add (j := 0) rfl
  have h1 : (s.loadImage (b0 :: b1 :: rest)).readByte (s.cfg.programOrigin + 1) = b1 :=
    State.loadImage_readByte_add (j := 1) rfl
  rw [fetch_ok h, h0, h1]

/-- Settles O56: the boot succeeds, and `pc` is `PROGRAM_ORIGIN`, where the image's first word stands. -/
theorem bootedProgramStartsAtOrigin : Obligations.BootedProgramStartsAtOrigin := fun b0 b1 rest hlength =>
  ⟨_, boot_next Config.machine_wf (Nat.add_le_add_right hlength 2), rfl, rfl, wordOfBytes b0 b1,
    fetch_loadImage (State.resetWith Config.machine) b0 b1 rest (by decide), wordOfBytes_toNat b0 b1⟩

/-- With nothing loaded, `PROGRAM_ORIGIN` lies past the font, so both bytes fetched there are 0. -/
theorem fetch_reset : fetch State.reset State.reset.pc.toNat = .ok 0x0000 := by
  have hzero : ∀ a, 80 ≤ a → State.reset.readByte a = 0 := fun a ha =>
    resetWith_readByte_of_not_font (.inr (by simpa [Config.machine] using ha))
  have hpc : State.reset.pc.toNat = 0x200 := resetWith_pc_toNat Config.machine_wf
  rw [hpc, fetch_ok (by decide), hzero 0x200 (by decide), hzero (0x200 + 1) (by decide)]
  rfl

/-- Settles O55: the word 0x0000 is illegal. -/
theorem firstTickWithoutProgramFails : Obligations.FirstTickWithoutProgramFails :=
  step_of_fetchDecode_error rfl (fetchDecode_of_illegal fetch_reset (e := .illegalWord 0x0000) rfl)

end Sys2Proof.Machine
end

section
/-! SUPPORT. `CALL` and `RET` together (R82, R83), and sample words of the test vectors (R65 to R67). -/

namespace Sys2Proof.Machine

/-- A `CALL` that succeeds found a free slot and left its return address there. -/
theorem exec_call_eq_next {addr : Addr12} {s t : State} (h : exec (.call addr) s = .next t) :
    s.sp < s.cfg.stackCapacity ∧ t.stack = s.stack.set s.sp (s.pc + 2) ∧ t.sp = s.sp + 1 := by
  cases exec_effect h with
  | call _ hfree => exact ⟨hfree, rfl, rfl⟩
  | skip hskip => cases hskip
  | load _ hx | flagged _ hx => cases hx

/-- Settles O11: the slot that `RET` reads is the one `CALL` wrote, and every other slot is as it was. -/
theorem returnComesBackBehindCall : Obligations.ReturnComesBackBehindCall := by
  intro s t u addr hlen hcall hstack hsp
  obtain ⟨hfree, htstack, htsp⟩ := exec_call_eq_next hcall
  rw [htstack] at hstack
  rw [htsp] at hsp
  have hsp_pred : u.sp - 1 = s.sp := by rw [hsp, Nat.add_sub_cancel]
  have hnewest : u.stack[u.sp - 1]? = some (s.pc + 2) := by
    rw [hsp_pred, hstack, List.getElem?_set_self (hlen ▸ hfree)]
  have hothers : ∀ k, k ≠ s.sp → u.stack[k]? = s.stack[k]? := fun k hk => by
    rw [hstack, List.getElem?_set_ne hk.symm]
  exact ⟨u.pop.setPc u.newest, exec_ret_next (hsp ▸ s.sp.succ_pos), newest_of_getElem? hnewest, hsp_pred, hothers⟩

end Sys2Proof.Machine

namespace Sys2Proof

theorem decode_of_illegal {w : Word} (h : IllegalClass w) : decode w = .error (.illegalWord w) :=
  (decode_eq_decodeByMap w).trans (decodeByMap_of_illegal h)

/-- Settles O5: the seven legal words are encodings, and the other two are of the illegal classes of families 0 and 8. -/
theorem sampleWordsDecode : Obligations.SampleWordsDecode :=
  ⟨decode_encode .cls, decode_encode (.jp 0xABC), decode_encode (.seImm 10 0x7F), decode_encode (.subn 10 11),
    decode_encode (.drw 10 11 5), decode_encode (.sknp 10), decode_encode (.ldBVx 10),
    decode_of_illegal (.inl ⟨rfl, by decide⟩), decode_of_illegal (.inr (.inr (.inl ⟨rfl, by decide⟩)))⟩

end Sys2Proof
end
